-- ==== Sys2Proof/Word.lean ====
section
/-! DEFINITION. The widths of the block's values and the names of its levels (spec/00_scope.md R8, R12, R16). -/

namespace Sys2Proof

/-- A host tick: `TS_W = LEN_W = 32` bits (R8, R22, R55). Durations are of the same width. -/
abbrev Tick := BitVec 32

/-- The accumulator: `ACC_W = 40` bits (R8, R23). -/
abbrev Accumulator := BitVec 40

/-- The bit counter: `BC_W = 6` bits (R8, R24). -/
abbrev BitCount := BitVec 6

/-- One field of a Decoded Frame (R96). -/
abbrev Byte := BitVec 8

/-- The input event word, one format and one length (R51, R58). -/
abbrev EventWord := BitVec 34

/-- A level a pin can have. `START_LEVEL` is one of these (R8, R9). -/
inductive PinLevel where
  | low
  | high
  deriving DecidableEq, Repr

/-- The level an event carries: "`level: {LOW, HIGH, WATCHDOG_TIMEOUT}`" (R16, R52). -/
inductive Level where
  | low
  | high
  | watchdogTimeout
  deriving DecidableEq, Repr

end Sys2Proof
end

