-- ==== Sys2Proof/Config.lean ====
section
/-! DEFINITION. The configuration record the model takes as an argument (spec/00_scope.md R8).
The environment's parameters are not in it: no rule of the block reads them, and R10 lets a model leave them out.
`TS_W`, `LEN_W` and `BC_W` are the widths of the types of Word.lean (assumption 5). -/

namespace Sys2Proof

/-- The parameters of R8's table that a rule of the block reads. The bounds are numbers, so that R9's condition that each
is below `2^LEN_W` is a check and not an assumption. -/
structure Config where
  /-- `START_LEVEL`: the level of the event that starts the preamble. `BIT_LEVEL` is its opposite (D4). -/
  startLevel : PinLevel
  /-- `PRE_LO_X`: preamble band, lower bound, exclusive. -/
  preLoX : Nat
  /-- `PRE_HI_X`: preamble band, upper bound, exclusive. -/
  preHiX : Nat
  /-- `GAP_LO`: inter-bit band, lower bound, inclusive. -/
  gapLo : Nat
  /-- `GAP_HI`: inter-bit band, upper bound, inclusive. -/
  gapHi : Nat
  /-- `ZERO_LO`: 0-bit band, lower bound, inclusive. -/
  zeroLo : Nat
  /-- `ZERO_HI`: 0-bit band, upper bound, inclusive. -/
  zeroHi : Nat
  /-- `ONE_LO`: 1-bit band, lower bound, inclusive. -/
  oneLo : Nat
  /-- `ONE_HI`: 1-bit band, upper bound, inclusive. -/
  oneHi : Nat
  /-- `ACC_W`: width of the accumulator; R9 requires 40. -/
  accW : Nat
  /-- `FRAME_BITS`: the bit count that completes a frame; R9 requires 40. -/
  frameBits : Nat
  /-- `LAST_TS_RESET`: reset value of `last_timestamp` (D8). -/
  lastTsReset : Tick
  /-- `TRACE_EN`: whether the trace port exists (D13). -/
  traceEn : Bool
  deriving DecidableEq, Repr

/-- The value column of R8's table. -/
def Config.default : Config where
  startLevel := .high
  preLoX := 70
  preHiX := 95
  gapLo := 35
  gapHi := 65
  zeroLo := 15
  zeroHi := 35
  oneLo := 60
  oneHi := 80
  accW := 40
  frameBits := 40
  lastTsReset := 0
  traceEn := true

end Sys2Proof
end

