-- ==== Sys2Proof/Syntax.lean ====
section
/-! DEFINITION. The block's instructions: the input events, one constructor per row of spec/opcode_table.json
(spec/30_encoding.md R52, R56). The one operand of each is the timestamp `TS` of its event word (R55). -/

namespace Sys2Proof

/-- The complete opcode map (R56). -/
inductive Instr where
  /-- `EV_LOW`: an edge after which the pin is LOW (R69). -/
  | evLow (ts : Tick)
  /-- `EV_HIGH`: an edge after which the pin is HIGH (R70). -/
  | evHigh (ts : Tick)
  /-- `EV_WDOG`: a watchdog timeout from the host (R89). -/
  | evWdog (ts : Tick)
  /-- `RESERVED_LVL3`: the reserved level code 0b11, an illegal event (R57, R93). -/
  | reservedLvl3 (ts : Tick)
  deriving DecidableEq, Repr

end Sys2Proof
end

