-- ==== Sys2Proof/WellFormed.lean ====
section
/-! DEFINITION. Which configurations a model may run (spec/00_scope.md R9) and which events a host may present
(spec/30_encoding.md R57). R9's condition on `START_LEVEL` holds by its type. -/

namespace Sys2Proof

/-- `PRE_LO_X + 1 < PRE_HI_X` (R9). -/
abbrev Config.preambleBandOk (c : Config) : Prop := c.preLoX + 1 < c.preHiX

/-- `GAP_LO ≤ GAP_HI` (R9). -/
abbrev Config.gapBandOk (c : Config) : Prop := c.gapLo ≤ c.gapHi

/-- `ZERO_LO ≤ ZERO_HI < ONE_LO ≤ ONE_HI`, the source's "overlapping-free numeric bands" (R9). -/
abbrev Config.bitBandsOk (c : Config) : Prop :=
  c.zeroLo ≤ c.zeroHi ∧ c.zeroHi < c.oneLo ∧ c.oneLo ≤ c.oneHi

/-- Every bound is below `2^LEN_W` (R9). -/
abbrev Config.boundsFit (c : Config) : Prop :=
  c.preLoX < 2 ^ 32 ∧ c.preHiX < 2 ^ 32 ∧ c.gapLo < 2 ^ 32 ∧ c.gapHi < 2 ^ 32 ∧
  c.zeroLo < 2 ^ 32 ∧ c.zeroHi < 2 ^ 32 ∧ c.oneLo < 2 ^ 32 ∧ c.oneHi < 2 ^ 32

/-- `FRAME_BITS = ACC_W = 40` (R9). -/
abbrev Config.frameWidthOk (c : Config) : Prop := c.frameBits = c.accW ∧ c.accW = 40

/-- A configuration is well formed when all of R9's conditions hold. -/
abbrev Config.WellFormed (c : Config) : Prop :=
  c.preambleBandOk ∧ c.gapBandOk ∧ c.bitBandsOk ∧ c.boundsFit ∧ c.frameWidthOk

/-- An event the host may present: "The reserved value `LVL = 0b11` is illegal" (R57). Every timestamp is legal (R54). -/
def Instr.wf : Instr → Bool
  | .evLow _ => true
  | .evHigh _ => true
  | .evWdog _ => true
  | .reservedLvl3 _ => false

end Sys2Proof
end

