-- ==== Sys2Proof/Decode.lean ====
section
/-! DEFINITION. The event word's layout, the decoder and the encoder (spec/30_encoding.md R51, R52, R56).
Decoding does not depend on the timestamp or on the block's state (R56). -/

namespace Sys2Proof

/-- The numeric code of a level in `LVL` (R52, D2). -/
def Level.code : Level → BitVec 2
  | .low => 0b00#2
  | .high => 0b01#2
  | .watchdogTimeout => 0b10#2

/-- The timestamp operand of an event (R55). -/
def Instr.ts : Instr → Tick
  | .evLow ts => ts
  | .evHigh ts => ts
  | .evWdog ts => ts
  | .reservedLvl3 ts => ts

/-- The level an event carries. The reserved code has none (R52). -/
def Instr.level : Instr → Option Level
  | .evLow _ => some .low
  | .evHigh _ => some .high
  | .evWdog _ => some .watchdogTimeout
  | .reservedLvl3 _ => none

/-- The field `LVL`, bits 33..32 (R51). -/
def lvlField (w : EventWord) : BitVec 2 := w.extractLsb' 32 2

/-- The field `TS`, bits 31..0 (R51). -/
def tsField (w : EventWord) : Tick := w.extractLsb' 0 32

/-- The opcode map of R56: every 34-bit word is one of the four events. -/
def decode (w : EventWord) : Instr :=
  let lvl := lvlField w
  if lvl = 0b00#2 then .evLow (tsField w)
  else if lvl = 0b01#2 then .evHigh (tsField w)
  else if lvl = 0b10#2 then .evWdog (tsField w)
  else .reservedLvl3 (tsField w)

/-- Why a number is no event word. -/
inductive DecodeError where
  /-- The number has a bit above bit 33, and "Every event word is 34 bits" (R58). Safe: nothing is run. -/
  | widerThanAnEventWord
  deriving DecidableEq, Repr

/-- A number as an event word (R51, R58). -/
def eventWordOfNat (w : Nat) : Except DecodeError EventWord :=
  if w < 2 ^ 34 then .ok (BitVec.ofNat 34 w) else .error .widerThanAnEventWord

/-- The decoder on any number: total, and what is no event word is rejected by name. -/
def decodeNat (w : Nat) : Except DecodeError Instr :=
  (eventWordOfNat w).map decode

/-- An event word from its level code and its timestamp: `{LVL, TS}` (R51). -/
def eventWordOf (lvl : BitVec 2) (ts : Tick) : EventWord := lvl ++ ts

/-- The word of an event (R51, R52). -/
def encode : Instr → EventWord
  | .evLow ts => eventWordOf 0b00#2 ts
  | .evHigh ts => eventWordOf 0b01#2 ts
  | .evWdog ts => eventWordOf 0b10#2 ts
  | .reservedLvl3 ts => eventWordOf 0b11#2 ts

/-- One row of spec/opcode_table.json: an event word `w` is the row's when `w &&& mask = pattern`. -/
structure OpcodeRow where
  mnemonic : String
  pattern : EventWord
  mask : EventWord
  deriving DecidableEq, Repr

/-- The rows of spec/opcode_table.json, in its order. -/
def opcodeTable : List OpcodeRow :=
  [⟨"EV_LOW", 0x000000000#34, 0x300000000#34⟩,
   ⟨"EV_HIGH", 0x100000000#34, 0x300000000#34⟩,
   ⟨"EV_WDOG", 0x200000000#34, 0x300000000#34⟩,
   ⟨"RESERVED_LVL3", 0x300000000#34, 0x300000000#34⟩]

/-- Whether a word is the row's. -/
def OpcodeRow.accepts (r : OpcodeRow) (w : EventWord) : Bool := w &&& r.mask == r.pattern

/-- The mnemonic of an event in spec/opcode_table.json. -/
def Instr.mnemonic : Instr → String
  | .evLow _ => "EV_LOW"
  | .evHigh _ => "EV_HIGH"
  | .evWdog _ => "EV_WDOG"
  | .reservedLvl3 _ => "RESERVED_LVL3"

/-- The number of an event word whose low `nbits` bits are those of `w` and whose other bits are 0. -/
def tableNumber (nbits w : Nat) : Nat := w % 2 ^ nbits

/-- The instruction the decoder reads from a row's bits, numbered as spec/opcode_table.json numbers them. The table's
bit 33 is the word's bit 33 (assumption 6). -/
def decodeTableWord (nbits w : Nat) : Option Instr :=
  match decodeNat (tableNumber nbits w) with
  | .ok i => some i
  | .error _ => none

end Sys2Proof
end

