-- ==== Sys2Proof/Machine/State.lean ====
section
/-! DEFINITION. The block's state (spec/10_state.md), the values it puts on its ports (spec/30_encoding.md R60, R61) and
the reasons a model gives a step no meaning. State is plain data. -/

namespace Sys2Proof.Machine

/-- "`phase: {IDLE, PREAMBLE_STARTED, READING_BITS}`" (R20). "A model uses a type with exactly three values" (R21). -/
inductive Phase where
  | idle
  | preambleStarted
  | readingBits
  deriving DecidableEq, Repr

/-- The outcome codes 0 to 8, in order (R106, D14). The codes 9 to 15 are never produced, so they are no values here. -/
inductive OutcomeCode where
  /-- `OC_IGNORED` -/
  | ignored
  /-- `OC_PRE_START` -/
  | preStart
  /-- `OC_PRE_DONE` -/
  | preDone
  /-- `OC_GAP` -/
  | gap
  /-- `OC_BIT0` -/
  | bit0
  /-- `OC_BIT1` -/
  | bit1
  /-- `OC_FRAME` -/
  | frame
  /-- `OC_ABORT_PROTO` -/
  | abortProto
  /-- `OC_ABORT_WDOG` -/
  | abortWdog
  deriving DecidableEq, Repr

/-- The source's error kinds that belong to the block (R19, R107 to R109). None stops the block. -/
inductive ErrorKind where
  | protocolViolation
  | watchdogTimeout
  | checksumMismatch
  deriving DecidableEq, Repr

/-- The Decoded Frame (R96, R98): five raw bytes and the verdict. -/
structure Frame where
  humidityHigh : Byte
  humidityLow : Byte
  temperatureHigh : Byte
  temperatureLow : Byte
  checksum : Byte
  valid : Bool
  deriving DecidableEq, Repr

/-- The trace record `(LVL, len, phase, bit_count, outcome)`, with `phase` and `bit_count` after the step (R61, R88). -/
structure TraceRecord where
  level : Level
  len : Tick
  phase : Phase
  bitCount : BitCount
  outcome : OutcomeCode
  deriving DecidableEq, Repr

/-- One presentation at the block's input ports (R59). -/
structure PortInput where
  rst : Bool
  evValid : Bool
  evWord : EventWord
  deriving DecidableEq, Repr

/-- The machine. The first four fields are the block's whole state (R20). The others are the model's own: the values of
the output ports in the step just taken, which no rule reads (assumption 3), the configuration (assumption 1) and what
the host is about to present (assumption 2). -/
structure State where
  /-- `phase` (R21). -/
  phase : Phase
  /-- `last_timestamp` (R22). -/
  lastTimestamp : Tick
  /-- `accumulator` (R23). -/
  accumulator : Accumulator
  /-- `bit_count` (R24). -/
  bitCount : BitCount
  /-- The frame output of the last step: `none` where it did not emit (R60). -/
  frameOut : Option Frame
  /-- The outcome code of the last step: `none` where it processed no event (R106). -/
  outcomeOut : Option OutcomeCode
  /-- The trace output of the last step: `none` where it produced no record (R61, R94, R125). -/
  traceOut : Option TraceRecord
  /-- The configuration, which no step writes (R8, R28). -/
  cfg : Config
  /-- What the host is about to present, the next first (R45, R59). -/
  inputs : List PortInput
  deriving DecidableEq, Repr

/-- The block has no trap and no fault: "Every error kind that belongs to the block is absorbed in the step where it
happens" (R105). So the type has no value. -/
inductive Fault where
  deriving DecidableEq, Repr

/-- Why the model gives a step no meaning. -/
inductive Refusal where
  /-- An instruction without a meaning yet. Raised by none of this model's instructions. Safe. -/
  | notModelled (mnemonic : String)
  /-- `refuse ReservedLevel`: raised by an event word with `LVL = 0b11` (R57, R93). Safe. -/
  | reservedLevel
  /-- Raised by every step, but that of a reserved event, under a configuration that breaks R9: "A model must refuse any
  other configuration" (R9, D28). Safe. -/
  | malformedConfig
  /-- Raised by an event in a state whose `bit_count` is one of 41..63, which R24 says are never produced and
  93_implementation_defined.md says to refuse (assumption 7). Safe. -/
  | undefinedBitCount
  deriving DecidableEq, Repr

/-- The reset values (R35) under a configuration, with nothing on the ports and nothing presented. -/
def State.resetWith (c : Config) : State where
  phase := .idle
  lastTimestamp := c.lastTsReset
  accumulator := 0
  bitCount := 0
  frameOut := none
  outcomeOut := none
  traceOut := none
  cfg := c
  inputs := []

/-- The machine right after reset under the default configuration (R8, R35). -/
def State.reset : State := State.resetWith Config.default

end Sys2Proof.Machine
end

