-- ==== Sys2Proof/Machine/Flags.lean ====
section
/-! DEFINITION. The block has no flags (spec/10_state.md R27). What a step computes in their place: the checksum verdict
(spec/42_frame_interpreter.md R97, R98), and the numbers and error kinds of the outcome codes
(spec/60_exceptions.md R106). -/

namespace Sys2Proof.Machine

/-- The 8-bit sum of the four data bytes, with wraparound (R97). -/
def checksumSum (humidityHigh humidityLow temperatureHigh temperatureLow : Byte) : Byte :=
  humidityHigh + humidityLow + temperatureHigh + temperatureLow

/-- `valid <- (checksum == sum)`, the only check (R98). -/
def verdict (humidityHigh humidityLow temperatureHigh temperatureLow checksum : Byte) : Bool :=
  checksum == checksumSum humidityHigh humidityLow temperatureHigh temperatureLow

/-- The code column of R106. -/
def OutcomeCode.code : OutcomeCode → BitVec 4
  | .ignored => 0
  | .preStart => 1
  | .preDone => 2
  | .gap => 3
  | .bit0 => 4
  | .bit1 => 5
  | .frame => 6
  | .abortProto => 7
  | .abortWdog => 8

/-- The outcome of an abort: `(lvl == WATCHDOG_TIMEOUT) ? OC_ABORT_WDOG : OC_ABORT_PROTO` (R68). -/
def abortCode : Level → OutcomeCode
  | .low => .abortProto
  | .high => .abortProto
  | .watchdogTimeout => .abortWdog

/-- The outcome of a recorded bit that is not the 40th: `(bit == 0) ? OC_BIT0 : OC_BIT1` (R68). -/
def bitCode (b : Bool) : OutcomeCode := if b then .bit1 else .bit0

/-- The source error kind of the step just taken: the last column of R106, where `OC_FRAME` is a ChecksumMismatch when
the frame's `valid` is false. -/
def State.errorKind (s : State) : Option ErrorKind :=
  match s.outcomeOut with
  | some .abortProto => some .protocolViolation
  | some .abortWdog => some .watchdogTimeout
  | some .frame =>
    match s.frameOut with
    | some f => if f.valid then none else some .checksumMismatch
    | none => none
  | _ => none

end Sys2Proof.Machine
end

