-- ==== Sys2Proof/Machine/FrameInterpreter.lean ====
section
/-! DEFINITION. The Frame Interpreter (spec/42_frame_interpreter.md): combinational, evaluated in the step that records the
40th bit. -/

namespace Sys2Proof.Machine

/-- `Interp(acc)`: the five bytes, most significant first, and the verdict (R95, R96, R98). -/
def interp (acc : Accumulator) : Frame :=
  let hh := acc.extractLsb' 32 8
  let hl := acc.extractLsb' 24 8
  let th := acc.extractLsb' 16 8
  let tl := acc.extractLsb' 8 8
  let ck := acc.extractLsb' 0 8
  { humidityHigh := hh, humidityLow := hl, temperatureHigh := th, temperatureLow := tl, checksum := ck,
    valid := verdict hh hl th tl ck }

end Sys2Proof.Machine
end

