-- ==== Sys2Proof/Machine/Operands.lean ====
section
/-! DEFINITION. An event's operands: its level, its timestamp and the derived duration `len`
(spec/30_encoding.md R55, spec/40_edge_events.md R67), and the bands that `len` is compared with (spec/00_scope.md R8). -/

namespace Sys2Proof

/-- "`opposite(LOW) = HIGH` and `opposite(HIGH) = LOW`" (R16). -/
def PinLevel.opposite : PinLevel → PinLevel
  | .low => .high
  | .high => .low

/-- A pin level as the level of an event. -/
def PinLevel.toLevel : PinLevel → Level
  | .low => .low
  | .high => .high

/-- The edge event of a pin level (R52). -/
def PinLevel.edge : PinLevel → Tick → Instr
  | .low, ts => .evLow ts
  | .high, ts => .evHigh ts

/-- `BIT_LEVEL = opposite(START_LEVEL)` (R8). -/
def Config.bitLevel (c : Config) : PinLevel := c.startLevel.opposite

/-- `lvl == START_LEVEL` (R68). -/
def Config.isStart (c : Config) (lvl : Level) : Bool := lvl == c.startLevel.toLevel

/-- `lvl == BIT_LEVEL` (R68). -/
def Config.isBit (c : Config) (lvl : Level) : Bool := lvl == c.bitLevel.toLevel

/-- `PRE_LO_X < len and len < PRE_HI_X`, both bounds exclusive (R68, R71). -/
def Config.inPreambleBand (c : Config) (len : Tick) : Bool :=
  decide (c.preLoX < len.toNat ∧ len.toNat < c.preHiX)

/-- `GAP_LO <= len and len <= GAP_HI` (R68, R77). -/
def Config.inGapBand (c : Config) (len : Tick) : Bool :=
  decide (c.gapLo ≤ len.toNat ∧ len.toNat ≤ c.gapHi)

/-- `ZERO_LO <= len and len <= ZERO_HI` (R68, R79). -/
def Config.inZeroBand (c : Config) (len : Tick) : Bool :=
  decide (c.zeroLo ≤ len.toNat ∧ len.toNat ≤ c.zeroHi)

/-- `ONE_LO <= len and len <= ONE_HI` (R68, R80). -/
def Config.inOneBand (c : Config) (len : Tick) : Bool :=
  decide (c.oneLo ≤ len.toNat ∧ len.toNat ≤ c.oneHi)

namespace Machine

/-- `len <- ev.TS -_32 S.last_timestamp`, mod 2^32 and with no wraparound correction (R67, R86). -/
def State.duration (s : State) (ts : Tick) : Tick := ts - s.lastTimestamp

end Machine

end Sys2Proof
end

