-- ==== Sys2Proof/Machine/Ops.lean ====
section
/-! DEFINITION. The named operations over the registers and the ports, and the step of R68 built from them
(spec/40_edge_events.md). `State.abort` is the block's one shared error operation: the block has no trap (R105), and an
abort is its only error transition (R114); there is no return from it (R115). -/

namespace Sys2Proof.Machine

/-- `S.phase <- p`. -/
def State.setPhase (s : State) (p : Phase) : State := { s with phase := p }

/-- `S.last_timestamp <- ts` (R67). -/
def State.setLastTimestamp (s : State) (ts : Tick) : State := { s with lastTimestamp := ts }

/-- `S.accumulator <- a`. -/
def State.setAccumulator (s : State) (a : Accumulator) : State := { s with accumulator := a }

/-- `S.bit_count <- n`. -/
def State.setBitCount (s : State) (n : BitCount) : State := { s with bitCount := n }

/-- `emit F`: the step's frame output (R14). -/
def State.emit (s : State) (f : Frame) : State := { s with frameOut := some f }

/-- `outcome <- c` (R14). -/
def State.setOutcome (s : State) (c : OutcomeCode) : State := { s with outcomeOut := some c }

/-- The stream of presentations still to come. -/
def State.setInputs (s : State) (ps : List PortInput) : State := { s with inputs := ps }

/-- No output is valid until a step makes it so: `frame <- none` (R68), `trace_valid = 0` (R94). -/
def State.clearOutputs (s : State) : State := { s with frameOut := none, outcomeOut := none, traceOut := none }

/-- `trace(lvl, len, S.phase, S.bit_count, outcome)`, values after the step, produced if `TRACE_EN` (R68, R88). -/
def State.trace (s : State) (lvl : Level) (len : Tick) : State :=
  { s with
    traceOut :=
      if s.cfg.traceEn then
        s.outcomeOut.map fun oc => ⟨lvl, len, s.phase, s.bitCount, oc⟩
      else none }

/-- An abort: `phase` returns to IDLE without emission and nothing is saved (R75, R82, R114). -/
def State.abort (s : State) (lvl : Level) : State := (s.setPhase .idle).setOutcome (abortCode lvl)

/-- The accumulator with a bit entered at bit 0: `((S.accumulator << 1) | zext_40(b))[39:0]` (R78). -/
def shiftIn (acc : Accumulator) (b : Bool) : Accumulator := (acc <<< 1) ||| (BitVec.ofBool b).setWidth 40

/-- Recording a bit, and the completion test that follows at once (R78, R81). -/
def State.recordBit (s : State) (b : Bool) : State :=
  let acc := shiftIn s.accumulator b
  let bc := s.bitCount + 1
  let t := (s.setAccumulator acc).setBitCount bc
  if bc.toNat = s.cfg.frameBits then ((t.setPhase .idle).emit (interp acc)).setOutcome .frame
  else t.setOutcome (bitCode b)

/-- IDLE's branch of R68 (R71, R72). -/
def State.stepIdle (s : State) (lvl : Level) (len : Tick) : State :=
  if s.cfg.isStart lvl && s.cfg.inPreambleBand len then (s.setPhase .preambleStarted).setOutcome .preStart
  else (s.setPhase .idle).setOutcome .ignored

/-- PREAMBLE_STARTED's branch of R68 (R73, R74, R75). -/
def State.stepPreamble (s : State) (lvl : Level) (len : Tick) : State :=
  if s.cfg.isBit lvl && s.cfg.inPreambleBand len then
    (((s.setPhase .readingBits).setAccumulator 0).setBitCount 0).setOutcome .preDone
  else s.abort lvl

/-- READING_BITS' branch of R68 (R76 to R82). -/
def State.stepReading (s : State) (lvl : Level) (len : Tick) : State :=
  if s.cfg.isStart lvl && s.cfg.inGapBand len then s.setOutcome .gap
  else if s.cfg.isBit lvl && s.cfg.inZeroBand len then s.recordBit false
  else if s.cfg.isBit lvl && s.cfg.inOneBand len then s.recordBit true
  else s.abort lvl

/-- The case on `S.phase` of R68. -/
def State.stepPhase (s : State) (lvl : Level) (len : Tick) : State :=
  match s.phase with
  | .idle => s.stepIdle lvl len
  | .preambleStarted => s.stepPreamble lvl len
  | .readingBits => s.stepReading lvl len

/-- The complete step of R68 on the registers: the prologue of R67, the case on the phase, the trace. -/
def State.transition (s : State) (lvl : Level) (ts : Tick) : State :=
  let len := s.duration ts
  ((s.clearOutputs.setLastTimestamp ts).stepPhase lvl len).trace lvl len

/-- "A model must refuse any other configuration" (R9). -/
def State.whenConfigured (s : State) (k : Host.Outcome State Fault Refusal) : Host.Outcome State Fault Refusal :=
  if s.cfg.WellFormed then k else .refused .malformedConfig

/-- The step of a legal event of level `lvl` (R68), where the configuration and the counter have a meaning
(R9, R24 and assumption 7). -/
def State.processEvent (s : State) (lvl : Level) (ts : Tick) : Host.Outcome State Fault Refusal :=
  s.whenConfigured <|
    if s.bitCount.toNat ≤ 40 then .next (s.transition lvl ts) else .refused .undefinedBitCount

/-- A step with `rst = 1`: every register to its reset value, no frame, no trace (R125). -/
def State.applyReset (s : State) : Host.Outcome State Fault Refusal :=
  s.whenConfigured <|
    .next { s.clearOutputs with
      phase := .idle, lastTimestamp := s.cfg.lastTsReset, accumulator := 0, bitCount := 0 }

/-- No event presented: "no step at all" (R94). The registers keep their values and no output is valid. -/
def State.noStep (s : State) : Host.Outcome State Fault Refusal :=
  s.whenConfigured (.next s.clearOutputs)

/-- The presentation of an event word, without reset (R59). -/
def PortInput.event (w : EventWord) : PortInput := ⟨false, true, w⟩

end Sys2Proof.Machine
end

