-- ==== Sys2Proof/Machine/Edge.lean ====
section
/-! DEFINITION. The meanings of the two edge events (spec/40_edge_events.md R69, R70). Which of the two is the start level is
the configuration's (R8, D4). -/

namespace Sys2Proof.Machine

/-- `EV_LOW`: R68 with `lvl = LOW` (R69). -/
def execEvLow (ts : Tick) (s : State) : Host.Outcome State Fault Refusal := s.processEvent .low ts

/-- `EV_HIGH`: R68 with `lvl = HIGH` (R70). -/
def execEvHigh (ts : Tick) (s : State) : Host.Outcome State Fault Refusal := s.processEvent .high ts

end Sys2Proof.Machine
end

