-- ==== Sys2Proof/Machine/Watchdog.lean ====
section
/-! DEFINITION. The meanings of the watchdog event and of the reserved level code (spec/41_timeout_event.md R89, R93). -/

namespace Sys2Proof.Machine

/-- `EV_WDOG`: R68 with `lvl = WATCHDOG_TIMEOUT`, for which no band test succeeds (R89). -/
def execEvWdog (ts : Tick) (s : State) : Host.Outcome State Fault Refusal := s.processEvent .watchdogTimeout ts

/-- The reserved level: "A model refuses the step: `refuse ReservedLevel`" (R93), whatever the timestamp and the state. -/
def execReservedLvl3 (_ts : Tick) (_s : State) : Host.Outcome State Fault Refusal := .refused .reservedLevel

end Sys2Proof.Machine
end

