-- ==== Sys2Proof/Machine/Dispatch.lean ====
section
/-! DEFINITION. The meaning of every event, one arm per constructor. -/

namespace Sys2Proof.Machine

def exec (i : Instr) (s : State) : Host.Outcome State Fault Refusal :=
  match i with
  | .evLow ts => Sys2Proof.Machine.execEvLow ts s
  | .evHigh ts => Sys2Proof.Machine.execEvHigh ts s
  | .evWdog ts => Sys2Proof.Machine.execEvWdog ts s
  | .reservedLvl3 ts => Sys2Proof.Machine.execReservedLvl3 ts s

end Sys2Proof.Machine
end

