-- ==== Sys2Proof/Machine/Step.lean ====
section
/-! DEFINITION. One step: the next presentation at the input ports (spec/30_encoding.md R59). The block fetches nothing
(R26, R49); its next instruction is the next event the host presents. -/

namespace Sys2Proof.Machine

/-- A presentation in a state: `rst` wins over an event (R126), an event is one step (R59), and neither is no step (R94). -/
def stepInput (p : PortInput) (s : State) : Host.Outcome State Fault Refusal :=
  if p.rst then s.applyReset
  else if p.evValid then exec (decode p.evWord) s
  else s.noStep

/-- One step takes the next presentation. When the host presents nothing, nothing happens (R94). -/
def step (s : State) : Host.Outcome State Fault Refusal :=
  match s.inputs with
  | [] => s.noStep
  | p :: rest => stepInput p (s.setInputs rest)

/-- The event word numbered `w` as the next presentation of the host, in front of what it presents later. A number that
is no event word is presented by no host, and nothing is added (assumption 6). -/
def State.withFetchWord (s : State) (nbits w : Nat) : State :=
  match eventWordOfNat (tableNumber nbits w) with
  | .ok ev => s.setInputs (PortInput.event ev :: s.inputs)
  | .error _ => s

end Sys2Proof.Machine
end

