-- ==== Sys2Proof/Machine/Ports.lean ====
section
/-! DEFINITION. The output ports as bits (spec/30_encoding.md R60 to R62). A port that is not valid has no word. -/

namespace Sys2Proof.Machine

/-- The encoding of `phase` (R20, D15). -/
def Phase.code : Phase → BitVec 2
  | .idle => 0b00#2
  | .preambleStarted => 0b01#2
  | .readingBits => 0b10#2

/-- `frame_word`: `{OK, HI, HF, TI, TF, CK}` (R60). -/
def Frame.word (f : Frame) : BitVec 41 :=
  BitVec.ofBool f.valid ++ (f.humidityHigh ++ (f.humidityLow ++ (f.temperatureHigh ++ (f.temperatureLow ++ f.checksum))))

/-- `trace_word`: `{T_LVL, T_LEN, T_PH, T_BC, T_OC}` (R61). -/
def TraceRecord.word (t : TraceRecord) : BitVec 46 :=
  t.level.code ++ (t.len ++ (t.phase.code ++ (t.bitCount ++ t.outcome.code)))

/-- `frame_valid` of the step just taken (R60). -/
def State.frameValid (s : State) : Bool := s.frameOut.isSome

/-- `frame_word` of the step just taken: "In a step that does not emit ... the model's frame output is `none`" (R60). -/
def State.frameWord (s : State) : Option (BitVec 41) := s.frameOut.map Frame.word

/-- `trace_valid` of the step just taken (R61). -/
def State.traceValid (s : State) : Bool := s.traceOut.isSome

/-- `trace_word` of the step just taken (R61). -/
def State.traceWord (s : State) : Option (BitVec 46) := s.traceOut.map TraceRecord.word

/-- `status_phase`: the current register, between steps included (R62). -/
def State.statusPhase (s : State) : BitVec 2 := s.phase.code

/-- `status_bit_count` (R62). -/
def State.statusBitCount (s : State) : BitCount := s.bitCount

end Sys2Proof.Machine
end

