-- ==== Sys2Proof/Machine/Run.lean ====
section
/-! DEFINITION. A run of the block and its observation (spec/70_reset_and_hazards.md R139): the emitted frames, each with the
index of its step, the trace records, and the state after the last step. -/

namespace Sys2Proof.Machine

/-- What a run shows. A run that was refused shows what came before the refusal and has no last state (R139). -/
structure Observation where
  frames : List (Nat × Frame)
  traces : List TraceRecord
  final : Option State
  deriving DecidableEq, Repr

/-- The state in which the host presents exactly one event word. -/
def State.present (s : State) (w : EventWord) : State := s.setInputs [PortInput.event w]

/-- The run from a state over a stream of event words, one step per word, steps numbered from `k`. -/
def runFrom (k : Nat) (s : State) : List EventWord → Observation
  | [] => ⟨[], [], some s⟩
  | w :: ws =>
    match step (s.present w) with
    | .next t =>
      let r := runFrom (k + 1) t ws
      ⟨t.frameOut.toList.map (fun f => (k, f)) ++ r.frames, t.traceOut.toList ++ r.traces, r.final⟩
    | .fault _ => ⟨[], [], none⟩
    | .refused _ => ⟨[], [], none⟩

/-- A run of the block: from reset, steps numbered from 1 (R139). -/
def run (c : Config) (ws : List EventWord) : Observation := runFrom 1 (State.resetWith c) ws

end Sys2Proof.Machine
end

