-- ==== Sys2Proof/Machine/Stream.lean ====
section
/-! DEFINITION. The event-stream notation and its pseudo-instructions (spec/30_encoding.md R64 to R66): an assembler from
lines to event words. A pseudo-instruction is only a way to write events; the block sees the words of its expansion (R66). -/

namespace Sys2Proof.Machine

/-- `<time>`: `@<t>`, or `+<d>` from the previous line's timestamp (R64). -/
inductive EventTime where
  | abs (t : Tick)
  | plus (d : Nat)
  deriving DecidableEq, Repr

/-- A line of the notation: an event, a pseudo-instruction of R65, or the opening `.start` (R64). -/
inductive Line where
  | start (t : Tick)
  | event (lvl : Level) (t : EventTime)
  | trigger (t : EventTime)
  | sensorAck
  | preamble
  | bit0
  | bit1
  | byte (b : Byte)
  | frame (hi hf ti tf ck : Byte)
  | release
  deriving DecidableEq, Repr

/-- An event before its timestamp is resolved. -/
abbrev TimedEvent := Level × EventTime

/-- `BIT0` and `BIT1`: a gap of 50, then a bit event of 25 or 70 (R65). -/
def expandBit (c : Config) (b : Bool) : List TimedEvent :=
  [(c.startLevel.toLevel, .plus 50), (c.bitLevel.toLevel, .plus (if b then 70 else 25))]

/-- `BYTE <b>`: its eight bits, most significant first (R65). -/
def expandByte (c : Config) (b : Byte) : List TimedEvent :=
  (List.range 8).flatMap fun i => expandBit c (b.getMsbD i)

/-- The expansion column of R65. -/
def Line.expand (c : Config) : Line → List TimedEvent
  | .start _ => []
  | .event lvl t => [(lvl, t)]
  | .trigger t => [(.low, t), (.high, .plus 19000)]
  | .sensorAck => [(.low, .plus 30)]
  | .preamble => [(c.startLevel.toLevel, .plus 80), (c.bitLevel.toLevel, .plus 80)]
  | .bit0 => expandBit c false
  | .bit1 => expandBit c true
  | .byte b => expandByte c b
  | .frame hi hf ti tf ck =>
    expandByte c hi ++ (expandByte c hf ++ (expandByte c ti ++ (expandByte c tf ++ expandByte c ck)))
  | .release => [(c.startLevel.toLevel, .plus 50)]

/-- The timestamp of a line, given the previous line's, mod 2^32 (R64). -/
def EventTime.resolve (prev : Tick) : EventTime → Tick
  | .abs t => t
  | .plus d => prev + BitVec.ofNat 32 d

/-- "Every line assembles to the event word `{LVL, TS}`" (R64), the first relative time taken from `prev`. -/
def assembleEvents (prev : Tick) : List TimedEvent → List EventWord
  | [] => []
  | (lvl, t) :: rest =>
    let ts := t.resolve prev
    eventWordOf lvl.code ts :: assembleEvents ts rest

/-- Whether a line is `.start`, which only opens a stream (R64). -/
def Line.isStart : Line → Bool
  | .start _ => true
  | _ => false

/-- The event words of a stream. A first relative time is taken from `.start`, by default from `LAST_TS_RESET`; a
`.start` that does not open the stream is no stream of R64. -/
def assemble (c : Config) (lines : List Line) : Option (List EventWord) :=
  let (base, body) : Tick × List Line :=
    match lines with
    | .start t :: rest => (t, rest)
    | _ => (c.lastTsReset, lines)
  if body.any Line.isStart then none else some (assembleEvents base (body.flatMap (Line.expand c)))

/-! The text of a line, as a list of characters. R64 and R65 fix the words of a line; how a number is spelled follows their
examples (assumption 9). -/

/-- The value of a digit in a base of at most 16. -/
def digitValue (base : Nat) (ch : Char) : Option Nat :=
  let n := ch.toNat
  let v :=
    if 48 ≤ n ∧ n ≤ 57 then n - 48
    else if 65 ≤ n ∧ n ≤ 70 then n - 55
    else if 97 ≤ n ∧ n ≤ 102 then n - 87
    else base
  if v < base then some v else none

/-- The digits of a number, most significant first, after those already read as `acc`. -/
def readDigits (base : Nat) : Nat → List Char → Option Nat
  | acc, [] => some acc
  | acc, ch :: rest => (digitValue base ch).bind fun d => readDigits base (acc * base + d) rest

/-- A number: hexadecimal after `0x`, else decimal. -/
def readNumber : List Char → Option Nat
  | '0' :: 'x' :: ch :: rest => readDigits 16 0 (ch :: rest)
  | [] => none
  | ch :: rest => readDigits 10 0 (ch :: rest)

/-- A number that fits in `w` bits. -/
def readWord (w : Nat) (cs : List Char) : Option (BitVec w) :=
  (readNumber cs).bind fun n => if n < 2 ^ w then some (BitVec.ofNat w n) else none

/-- `@<t>`, "an absolute 32-bit timestamp", or `+<d>` (R64). -/
def readTime : List Char → Option EventTime
  | '@' :: cs => (readWord 32 cs).map .abs
  | '+' :: cs => (readNumber cs).map .plus
  | _ => none

/-- The words of a line, split at spaces; `cur` is the word being read, reversed. -/
def splitWords (cur : List Char) : List Char → List (List Char)
  | [] => if cur.isEmpty then [] else [cur.reverse]
  | ch :: rest =>
    if ch = ' ' then (if cur.isEmpty then splitWords [] rest else cur.reverse :: splitWords [] rest)
    else splitWords (ch :: cur) rest

/-- A line of the notation from its words (R64, R65). -/
def readLineWords : List (List Char) → Option Line
  | [['.', 's', 't', 'a', 'r', 't'], t] => (readWord 32 t).map .start
  | [['L', 'O', 'W'], t] => (readTime t).map (.event .low)
  | [['H', 'I', 'G', 'H'], t] => (readTime t).map (.event .high)
  | [['W', 'D', 'O', 'G'], t] => (readTime t).map (.event .watchdogTimeout)
  | [['T', 'R', 'I', 'G', 'G', 'E', 'R'], t] => (readTime t).map .trigger
  | [['S', 'E', 'N', 'S', 'O', 'R', '_', 'A', 'C', 'K']] => some .sensorAck
  | [['P', 'R', 'E', 'A', 'M', 'B', 'L', 'E']] => some .preamble
  | [['B', 'I', 'T', '0']] => some .bit0
  | [['B', 'I', 'T', '1']] => some .bit1
  | [['B', 'Y', 'T', 'E'], b] => (readWord 8 b).map .byte
  | [['F', 'R', 'A', 'M', 'E'], hi, hf, ti, tf, ck] =>
    (readWord 8 hi).bind fun hi => (readWord 8 hf).bind fun hf => (readWord 8 ti).bind fun ti =>
      (readWord 8 tf).bind fun tf => (readWord 8 ck).map fun ck => .frame hi hf ti tf ck
  | [['R', 'E', 'L', 'E', 'A', 'S', 'E']] => some .release
  | _ => none

/-- The words of a line of text, without its `; comment` (R64). -/
def lineWords (text : List Char) : List (List Char) := splitWords [] (text.takeWhile (fun ch => ch ≠ ';'))

/-- The lines of a text, one event or pseudo-instruction a line; a line with no word is skipped. -/
def readLines : List (List Char) → Option (List Line)
  | [] => some []
  | text :: rest =>
    if (lineWords text).isEmpty then readLines rest
    else (readLineWords (lineWords text)).bind fun l => (readLines rest).map fun ls => l :: ls

/-- A text of the notation to event words (R64). -/
def assembleText (c : Config) (text : List (List Char)) : Option (List EventWord) :=
  (readLines text).bind (assemble c)

end Sys2Proof.Machine
end

