-- ==== Sys2Proof/Safety.lean ====
section
/-! DEFINITION. The terms that claims about the block use: where an event has a meaning, the states a run reaches, the
invariant, and what the rules give an event, written a second time from the rules' own words and numbers and not from the
model's operations. -/

namespace Sys2Proof

/-- The elapsed ticks from `last` to `ts`: "`a -_32 b` is `(a - b) mod 2^32`" (R12), over the numbers. -/
def elapsed (last ts : Tick) : Nat := (ts.toNat + 2 ^ 32 - last.toNat) % 2 ^ 32

/-- The band bounds of R8's table. -/
abbrev Config.DefaultBands (c : Config) : Prop :=
  c.preLoX = 70 ∧ c.preHiX = 95 ∧ c.gapLo = 35 ∧ c.gapHi = 65 ∧
  c.zeroLo = 15 ∧ c.zeroHi = 35 ∧ c.oneLo = 60 ∧ c.oneHi = 80

namespace Machine

/-- The states in which a legal event is processed: the configuration is well formed (R9) and `bit_count` is one of its
values 0..40 (R24). -/
abbrev State.Ready (s : State) : Prop := s.cfg.WellFormed ∧ s.bitCount.toNat ≤ 40

/-- R31 and R32: `bit_count ≤ 40`, and in READING_BITS `bit_count ≤ 39` and `accumulator < 2^bit_count`. -/
def State.CountBounded (s : State) : Prop :=
  s.bitCount.toNat ≤ 40 ∧
  (s.phase = .readingBits → s.bitCount.toNat ≤ 39 ∧ s.accumulator.toNat < 2 ^ s.bitCount.toNat)

/-- What stands on the ports agrees with the registers: a frame is `Interp(accumulator)` of an emission that left IDLE and
40 (R33, R60, R95), and a trace record shows the values after the step (R61, R88). -/
def State.PortsAgree (s : State) : Prop :=
  (∀ f, s.frameOut = some f →
    f = interp s.accumulator ∧ s.phase = .idle ∧ s.bitCount = 40 ∧ s.outcomeOut = some .frame) ∧
  (s.outcomeOut = some .frame → ∃ f, s.frameOut = some f) ∧
  (∀ r, s.traceOut = some r →
    s.cfg.traceEn = true ∧ r.phase = s.phase ∧ r.bitCount = s.bitCount ∧ s.outcomeOut = some r.outcome) ∧
  (s.cfg.traceEn = true → ∀ oc, s.outcomeOut = some oc → ∃ r, s.traceOut = some r)

/-- The invariant of the block. -/
def State.Inv (s : State) : Prop := s.CountBounded ∧ s.PortsAgree

/-- "Reachable from reset" (R31): by steps, over whatever the host presents (R122). -/
inductive Reachable (c : Config) : State → Prop where
  | reset : Reachable c (State.resetWith c)
  | presented (s : State) (ps : List PortInput) : Reachable c s → Reachable c { s with inputs := ps }
  | stepped (s t : State) : Reachable c s → step s = .next t → Reachable c t

/-- The ticks from the previous event to `ts` (R17, R67). -/
def State.len (s : State) (ts : Tick) : Nat := elapsed s.lastTimestamp ts

/-- The state after an event of level `lvl` at `ts` that leaves the given registers and gives the given outputs. All that
an event may change is named; the rest is as before, and the trace record shows the values after the step (R88). -/
def State.after (s : State) (lvl : Level) (ts : Tick) (p : Phase) (a : Accumulator) (n : BitCount)
    (oc : OutcomeCode) (f : Option Frame) : State where
  phase := p
  lastTimestamp := ts
  accumulator := a
  bitCount := n
  frameOut := f
  outcomeOut := some oc
  traceOut := if s.cfg.traceEn = true then some ⟨lvl, BitVec.ofNat 32 (s.len ts), p, n, oc⟩ else none
  cfg := s.cfg
  inputs := s.inputs

/-- The state after an event that changes no register but `phase` and `last_timestamp`. -/
def State.afterPhase (s : State) (lvl : Level) (ts : Tick) (p : Phase) (oc : OutcomeCode) : State :=
  s.after lvl ts p s.accumulator s.bitCount oc none

/-- The accumulator with the bit `b` entered at bit 0 (R78). -/
def State.entered (s : State) (b : Bool) : Accumulator := BitVec.ofNat 40 (2 * s.accumulator.toNat + b.toNat)

/-- The state after an event that records a bit which is not the 40th (R78 to R80). -/
def State.afterBit (s : State) (lvl : Level) (ts : Tick) (b : Bool) : State :=
  s.after lvl ts .readingBits (s.entered b) (BitVec.ofNat 6 (s.bitCount.toNat + 1))
    (if b = true then .bit1 else .bit0) none

/-- The state after an event that records the 40th bit (R81). -/
def State.afterFrame (s : State) (lvl : Level) (ts : Tick) (b : Bool) : State :=
  s.after lvl ts .idle (s.entered b) 40 .frame (some (interp (s.entered b)))

/-- The state after an event that records a bit (R78 to R81). -/
def State.afterRecord (s : State) (lvl : Level) (ts : Tick) (b : Bool) : State :=
  if s.bitCount.toNat + 1 = 40 then s.afterFrame lvl ts b else s.afterBit lvl ts b

/-- What R69 gives an edge event that has the bit level, with R8's numbers. -/
def State.asBitLevel (s : State) (lvl : Level) (ts : Tick) : State :=
  match s.phase with
  | .idle => s.afterPhase lvl ts .idle .ignored
  | .preambleStarted =>
    if 70 < s.len ts ∧ s.len ts < 95 then s.after lvl ts .readingBits 0 0 .preDone none
    else s.afterPhase lvl ts .idle .abortProto
  | .readingBits =>
    if 15 ≤ s.len ts ∧ s.len ts ≤ 35 then s.afterRecord lvl ts false
    else if 60 ≤ s.len ts ∧ s.len ts ≤ 80 then s.afterRecord lvl ts true
    else s.afterPhase lvl ts .idle .abortProto

/-- What R70 gives an edge event that has the start level, with R8's numbers. -/
def State.asStartLevel (s : State) (lvl : Level) (ts : Tick) : State :=
  match s.phase with
  | .idle =>
    if 70 < s.len ts ∧ s.len ts < 95 then s.afterPhase lvl ts .preambleStarted .preStart
    else s.afterPhase lvl ts .idle .ignored
  | .preambleStarted => s.afterPhase lvl ts .idle .abortProto
  | .readingBits =>
    if 35 ≤ s.len ts ∧ s.len ts ≤ 65 then s.afterPhase lvl ts .readingBits .gap
    else s.afterPhase lvl ts .idle .abortProto

/-- The reduced step of R89. -/
def State.asWatchdog (s : State) (ts : Tick) : State :=
  s.afterPhase .watchdogTimeout ts .idle (if s.phase = .idle then .ignored else .abortWdog)

/-- `PRE_LO_X < len < PRE_HI_X` (R71, R73). -/
abbrev State.PreambleLen (s : State) (ts : Tick) : Prop := s.cfg.preLoX < s.len ts ∧ s.len ts < s.cfg.preHiX

/-- `GAP_LO ≤ len ≤ GAP_HI` (R77). -/
abbrev State.GapLen (s : State) (ts : Tick) : Prop := s.cfg.gapLo ≤ s.len ts ∧ s.len ts ≤ s.cfg.gapHi

/-- The band of a bit `b`: `ZERO_LO ≤ len ≤ ZERO_HI` or `ONE_LO ≤ len ≤ ONE_HI` (R79, R80). -/
abbrev State.BitLen (s : State) (ts : Tick) (b : Bool) : Prop :=
  if b = true then s.cfg.oneLo ≤ s.len ts ∧ s.len ts ≤ s.cfg.oneHi
  else s.cfg.zeroLo ≤ s.len ts ∧ s.len ts ≤ s.cfg.zeroHi

/-- An edge event at the pin level `p` is an admissible observation of the phase (R73, R76). In IDLE there is none to
violate (R107). -/
def State.Admits (s : State) (p : PinLevel) (ts : Tick) : Prop :=
  match s.phase with
  | .idle => True
  | .preambleStarted => p = s.cfg.bitLevel ∧ s.PreambleLen ts
  | .readingBits => (p = s.cfg.startLevel ∧ s.GapLen ts) ∨ (p = s.cfg.bitLevel ∧ ∃ b, s.BitLen ts b)

/-- The event completes and leaves the phase `p` with the outcome `oc`. -/
def State.LeadsTo (s : State) (i : Instr) (p : Phase) (oc : OutcomeCode) : Prop :=
  ∃ t, exec i s = .next t ∧ t.phase = p ∧ t.outcomeOut = some oc

/-- The registers of R20. -/
def State.SameRegisters (s t : State) : Prop :=
  t.phase = s.phase ∧ t.lastTimestamp = s.lastTimestamp ∧ t.accumulator = s.accumulator ∧ t.bitCount = s.bitCount

/-- The registers agree so far as a rule reads them: "No rule of the block reads [accumulator, bit_count] outside
`READING_BITS`" (R36). -/
def State.SameWhereRead (s t : State) : Prop :=
  t.cfg = s.cfg ∧ t.phase = s.phase ∧ t.lastTimestamp = s.lastTimestamp ∧
  (s.phase = .readingBits → t.accumulator = s.accumulator ∧ t.bitCount = s.bitCount)

/-- Every word of a stream is an event a host may present (R57, R122). -/
def LegalStream (ws : List EventWord) : Prop := ∀ w ∈ ws, (decode w).wf = true

/-- A stream of gaps and bit events after the tick `last` that carries `bits` in order, ends with a bit event and leaves
the tick `last'`. Any number of gaps may stand before a bit, and none must (R77, R79, R80, R84). -/
inductive CarriesBits (c : Config) : Tick → List EventWord → List Bool → Tick → Prop where
  | done (last : Tick) : CarriesBits c last [] [] last
  | gap (last ts last' : Tick) (ws : List EventWord) (b : Bool) (bs : List Bool)
      (band : c.gapLo ≤ elapsed last ts ∧ elapsed last ts ≤ c.gapHi) (rest : CarriesBits c ts ws (b :: bs) last') :
      CarriesBits c last (encode (c.startLevel.edge ts) :: ws) (b :: bs) last'
  | bit (last ts last' : Tick) (ws : List EventWord) (b : Bool) (bs : List Bool)
      (band : if b = true then c.oneLo ≤ elapsed last ts ∧ elapsed last ts ≤ c.oneHi
        else c.zeroLo ≤ elapsed last ts ∧ elapsed last ts ≤ c.zeroHi)
      (rest : CarriesBits c ts ws bs last') :
      CarriesBits c last (encode (c.bitLevel.edge ts) :: ws) (b :: bs) last'

/-- A stream of gaps alone after the tick `last`, any number of them, that leaves the tick `last'` (R77, R84). -/
inductive Gaps (c : Config) : Tick → List EventWord → Tick → Prop where
  | done (last : Tick) : Gaps c last [] last
  | gap (last ts last' : Tick) (ws : List EventWord)
      (band : c.gapLo ≤ elapsed last ts ∧ elapsed last ts ≤ c.gapHi) (rest : Gaps c ts ws last') :
      Gaps c last (encode (c.startLevel.edge ts) :: ws) last'

/-- Edge events whose levels alternate, from the level `p` (R84, R138). -/
def Alternates : PinLevel → List EventWord → Prop
  | _, [] => True
  | p, w :: ws => (∃ ts, w = encode (p.edge ts)) ∧ Alternates p.opposite ws

/-- The sum of the durations of a stream's events after the tick `last` (R138). -/
def totalLen (last : Tick) : List EventWord → Nat
  | [] => 0
  | w :: ws => elapsed last (tsField w) + totalLen (tsField w) ws

/-- The verdict of R98 over the numbers: the checksum is the sum of the four data bytes mod 256. -/
abbrev Frame.SumMatches (f : Frame) : Prop :=
  f.checksum.toNat =
    (f.humidityHigh.toNat + f.humidityLow.toNat + f.temperatureHigh.toNat + f.temperatureLow.toNat) % 256

end Machine

end Sys2Proof
end

