-- ==== Sys2Proof/Certificates/Slice0/Obligations.lean ====
section
/-! DEFINITION. The statements for the provers, one per obligation of OBLIGATIONS.json. A statement whose rule is a decision
D<n> of the spec, or an inference the spec marks as derived, says so in its docstring. -/

open Sys2Proof Sys2Proof.Machine

/-! ## The event word -/

/-- Decode and encode agree, both ways, on every event and on every word. The layout `{LVL, TS}` and the level codes are
the spec's decisions D5 and D2. -/
def Obligations.DecodeAndEncodeAgree : Prop :=
  (∀ i : Instr, decode (encode i) = i) ∧ (∀ w : EventWord, encode (decode w) = w)

/-- Words written out from the layout of 30_encoding.md section 1 decode to the events they stand for. -/
def Obligations.WrittenWordsDecode : Prop :=
  decode 0x000001050#34 = .evLow 0x00001050#32 ∧
  decode 0x100000050#34 = .evHigh 0x00000050#32 ∧
  decode 0x20000D350#34 = .evWdog 0x0000D350#32 ∧
  decode 0x300001050#34 = .reservedLvl3 0x00001050#32 ∧
  decode 0x1FFFFFA38#34 = .evHigh 0xFFFFFA38#32

/-- The opcode map is the match and mask of spec/opcode_table.json, for every word, and the operand is the low 32 bits
(30_encoding.md section 3, decision D2). -/
def Obligations.OpcodeRowsDecide : Prop :=
  ∀ w : EventWord,
    (w &&& 0x300000000#34 = 0x000000000#34 ↔ decode w = .evLow (BitVec.ofNat 32 w.toNat)) ∧
    (w &&& 0x300000000#34 = 0x100000000#34 ↔ decode w = .evHigh (BitVec.ofNat 32 w.toNat)) ∧
    (w &&& 0x300000000#34 = 0x200000000#34 ↔ decode w = .evWdog (BitVec.ofNat 32 w.toNat)) ∧
    (w &&& 0x300000000#34 = 0x300000000#34 ↔ decode w = .reservedLvl3 (BitVec.ofNat 32 w.toNat))

/-- A number of more than 34 bits is rejected by name, and every other number is the word of an event
(30_encoding.md section 3, decision D5; the rejection's name is the model's, assumption 6). -/
def Obligations.NumbersDecodeOrAreRejected : Prop :=
  ∀ n : Nat,
    (2 ^ 34 ≤ n → decodeNat n = .error .widerThanAnEventWord) ∧
    (n < 2 ^ 34 → ∃ i, decodeNat n = .ok i ∧ (encode i).toNat = n)

/-- A presented event is one step, the step of the event its word decodes to (30_encoding.md section 4, decision D1). -/
def Obligations.StepRunsTheDecodedEvent : Prop :=
  ∀ (s : State) (p : PortInput) (rest : List PortInput) (i : Instr),
    s.inputs = p :: rest → p.rst = false → p.evValid = true → decode p.evWord = i →
    step s = exec i { s with inputs := rest }

/-! ## Reset, and no event -/

/-- The state after reset: IDLE, `LAST_TS_RESET`, 0 and 0 (10_state.md section 4; the last three are decision D8), and the
whole value column of R8's table, which `Config.default` holds (decisions D4, D13 and D17). That the reset machine holds the
default configuration is the model's (assumption 1). -/
def Obligations.ResetLeavesTheResetValues : Prop :=
  (∀ c : Config,
    (State.resetWith c).phase = .idle ∧ (State.resetWith c).lastTimestamp = c.lastTsReset ∧
    (State.resetWith c).accumulator = 0 ∧ (State.resetWith c).bitCount = 0 ∧ (State.resetWith c).cfg = c) ∧
  State.reset = State.resetWith Config.default ∧
  (Config.default.startLevel = .high ∧ Config.default.bitLevel = .low ∧ Config.default.DefaultBands ∧
    Config.default.accW = 40 ∧ Config.default.frameBits = 40 ∧ Config.default.lastTsReset = 0 ∧
    Config.default.traceEn = true ∧ Config.default.WellFormed)

/-- `rst` sets every register to its reset value, emits and traces nothing, and wins over an event presented with it
(70_reset_and_hazards.md section 1, decision D21). -/
def Obligations.ResetInputWins : Prop :=
  ∀ (s : State) (p : PortInput) (rest : List PortInput),
    s.cfg.WellFormed → s.inputs = p :: rest → p.rst = true →
    step s = .next
      { phase := .idle, lastTimestamp := s.cfg.lastTsReset, accumulator := 0, bitCount := 0,
        frameOut := none, outcomeOut := none, traceOut := none, cfg := s.cfg, inputs := rest }

/-- A presentation without `ev_valid` and `rst` is no step: no register changes and no output is valid, however many such
presentations follow one another. -/
def Obligations.NoEventIsNoStep : Prop :=
  (∀ (s : State) (p : PortInput) (rest : List PortInput),
    s.cfg.WellFormed → s.inputs = p :: rest → p.rst = false → p.evValid = false →
    step s = .next { s with frameOut := none, outcomeOut := none, traceOut := none, inputs := rest }) ∧
  (∀ (n : Nat) (s : State),
    s.cfg.WellFormed → (∀ p ∈ s.inputs, p.rst = false ∧ p.evValid = false) → n ≤ s.inputs.length →
    ∃ t : State, core.run n s = .next t ∧ s.SameRegisters t ∧ t.cfg = s.cfg ∧ t.inputs = s.inputs.drop n ∧
      (0 < n → t.frameValid = false ∧ t.traceValid = false))

/-- With nothing presented, as after reset, every step is such a step: no register changes and no output is valid, for any
number of steps. That a step on an empty stream is a no-step is the model's choice (assumption 4). -/
def Obligations.EmptyStreamIsNoStep : Prop :=
  (∀ s : State, s.cfg.WellFormed → s.inputs = [] →
    step s = .next { s with frameOut := none, outcomeOut := none, traceOut := none }) ∧
  (∀ (n : Nat) (s : State),
    s.cfg.WellFormed → (∀ p ∈ s.inputs, p.rst = false ∧ p.evValid = false) → s.inputs.length ≤ n →
    ∃ t : State, core.run n s = .next t ∧ s.SameRegisters t ∧ t.cfg = s.cfg ∧ t.inputs = [] ∧
      (0 < n → t.frameValid = false ∧ t.traceValid = false))

/-! ## The edge events, branch by branch, under every configuration -/

/-- IDLE to PREAMBLE_STARTED: a start-level edge in the preamble band. No register but `phase` and `last_timestamp`. Under
R8's bands 71 and 94 start a preamble, 70 and 95 do not. -/
def Obligations.PreambleStarts : Prop :=
  ∀ (s : State) (ts : Tick), s.Ready → s.phase = .idle →
    (s.PreambleLen ts → exec (s.cfg.startLevel.edge ts) s =
      .next (s.after s.cfg.startLevel.toLevel ts .preambleStarted s.accumulator s.bitCount .preStart none)) ∧
    (s.cfg.DefaultBands →
      (s.len ts = 71 ∨ s.len ts = 94 → s.LeadsTo (s.cfg.startLevel.edge ts) .preambleStarted .preStart) ∧
      (s.len ts = 70 ∨ s.len ts = 95 → s.LeadsTo (s.cfg.startLevel.edge ts) .idle .ignored))

/-- IDLE ignores every other event: a start-level edge outside the band, a bit-level edge, a watchdog timeout. -/
def Obligations.IdleIgnoresEveryOtherEvent : Prop :=
  ∀ (s : State) (ts : Tick), s.Ready → s.phase = .idle →
    (¬ s.PreambleLen ts → exec (s.cfg.startLevel.edge ts) s =
      .next (s.after s.cfg.startLevel.toLevel ts .idle s.accumulator s.bitCount .ignored none)) ∧
    exec (s.cfg.bitLevel.edge ts) s =
      .next (s.after s.cfg.bitLevel.toLevel ts .idle s.accumulator s.bitCount .ignored none) ∧
    exec (.evWdog ts) s =
      .next (s.after .watchdogTimeout ts .idle s.accumulator s.bitCount .ignored none)

/-- PREAMBLE_STARTED to READING_BITS: a bit-level edge, the level opposite to the start level, in the preamble band. It
clears the accumulator and the counter. Under R8's bands 71 and 94 complete a preamble, 70 and 95 do not. -/
def Obligations.PreambleCompletes : Prop :=
  ∀ (s : State) (ts : Tick), s.Ready → s.phase = .preambleStarted →
    (s.PreambleLen ts → exec (s.cfg.startLevel.opposite.edge ts) s =
      .next (s.after s.cfg.startLevel.opposite.toLevel ts .readingBits 0 0 .preDone none)) ∧
    (s.cfg.DefaultBands →
      (s.len ts = 71 ∨ s.len ts = 94 → s.LeadsTo (s.cfg.startLevel.opposite.edge ts) .readingBits .preDone) ∧
      (s.len ts = 70 ∨ s.len ts = 95 → s.LeadsTo (s.cfg.startLevel.opposite.edge ts) .idle .abortProto))

/-- Every other event in PREAMBLE_STARTED returns to IDLE without emission, a start-level edge whatever its duration. -/
def Obligations.PreambleAborts : Prop :=
  ∀ (s : State) (ts : Tick), s.Ready → s.phase = .preambleStarted →
    exec (s.cfg.startLevel.edge ts) s =
      .next (s.after s.cfg.startLevel.toLevel ts .idle s.accumulator s.bitCount .abortProto none) ∧
    (¬ s.PreambleLen ts → exec (s.cfg.bitLevel.edge ts) s =
      .next (s.after s.cfg.bitLevel.toLevel ts .idle s.accumulator s.bitCount .abortProto none)) ∧
    exec (.evWdog ts) s =
      .next (s.after .watchdogTimeout ts .idle s.accumulator s.bitCount .abortWdog none)

/-- A gap changes nothing but `last_timestamp`. Under R8's bands 35 and 65 are gaps, 34 and 66 abort. -/
def Obligations.GapRecordsNoBit : Prop :=
  ∀ (s : State) (ts : Tick), s.Ready → s.phase = .readingBits →
    (s.GapLen ts → exec (s.cfg.startLevel.edge ts) s =
      .next (s.after s.cfg.startLevel.toLevel ts .readingBits s.accumulator s.bitCount .gap none)) ∧
    (s.cfg.DefaultBands →
      (s.len ts = 35 ∨ s.len ts = 65 → s.LeadsTo (s.cfg.startLevel.edge ts) .readingBits .gap) ∧
      (s.len ts = 34 ∨ s.len ts = 66 → s.LeadsTo (s.cfg.startLevel.edge ts) .idle .abortProto))

/-- A bit-level edge in the 0 band records a 0 bit; the 40th completes the frame. Under R8's bands 15 and 35 record
a 0, 14 and 36 abort. -/
def Obligations.ZeroBitIsRecorded : Prop :=
  ∀ (s : State) (ts : Tick), s.Ready → s.phase = .readingBits →
    (s.cfg.zeroLo ≤ s.len ts → s.len ts ≤ s.cfg.zeroHi →
      (s.bitCount.toNat + 1 ≠ 40 → exec (s.cfg.bitLevel.edge ts) s =
        .next (s.after s.cfg.bitLevel.toLevel ts .readingBits (BitVec.ofNat 40 (2 * s.accumulator.toNat))
          (BitVec.ofNat 6 (s.bitCount.toNat + 1)) .bit0 none)) ∧
      (s.bitCount.toNat + 1 = 40 → exec (s.cfg.bitLevel.edge ts) s =
        .next (s.after s.cfg.bitLevel.toLevel ts .idle (BitVec.ofNat 40 (2 * s.accumulator.toNat)) 40 .frame
          (some (interp (BitVec.ofNat 40 (2 * s.accumulator.toNat))))))) ∧
    (s.cfg.DefaultBands →
      (s.bitCount.toNat + 1 ≠ 40 → s.len ts = 15 ∨ s.len ts = 35 →
        s.LeadsTo (s.cfg.bitLevel.edge ts) .readingBits .bit0) ∧
      (s.len ts = 14 ∨ s.len ts = 36 → s.LeadsTo (s.cfg.bitLevel.edge ts) .idle .abortProto))

/-- A bit-level edge in the 1 band records a 1 bit; the 40th completes the frame. Under R8's bands 60 and 80 record
a 1, 59 and 81 abort. -/
def Obligations.OneBitIsRecorded : Prop :=
  ∀ (s : State) (ts : Tick), s.Ready → s.phase = .readingBits →
    (s.cfg.oneLo ≤ s.len ts → s.len ts ≤ s.cfg.oneHi →
      (s.bitCount.toNat + 1 ≠ 40 → exec (s.cfg.bitLevel.edge ts) s =
        .next (s.after s.cfg.bitLevel.toLevel ts .readingBits (BitVec.ofNat 40 (2 * s.accumulator.toNat + 1))
          (BitVec.ofNat 6 (s.bitCount.toNat + 1)) .bit1 none)) ∧
      (s.bitCount.toNat + 1 = 40 → exec (s.cfg.bitLevel.edge ts) s =
        .next (s.after s.cfg.bitLevel.toLevel ts .idle (BitVec.ofNat 40 (2 * s.accumulator.toNat + 1)) 40 .frame
          (some (interp (BitVec.ofNat 40 (2 * s.accumulator.toNat + 1))))))) ∧
    (s.cfg.DefaultBands →
      (s.bitCount.toNat + 1 ≠ 40 → s.len ts = 60 ∨ s.len ts = 80 →
        s.LeadsTo (s.cfg.bitLevel.edge ts) .readingBits .bit1) ∧
      (s.len ts = 59 ∨ s.len ts = 81 → s.LeadsTo (s.cfg.bitLevel.edge ts) .idle .abortProto))

/-- Recording a bit enters it at bit 0 and counts it, and the bit that the shift discards is 0, so no received bit is lost.
The premise `CountBounded` is the invariant of R31 and R32. -/
def Obligations.RecordedBitsAreNeverLost : Prop :=
  ∀ (s : State) (ts : Tick) (b : Bool), s.Ready → s.CountBounded → s.phase = .readingBits → s.BitLen ts b →
    s.accumulator.getLsbD 39 = false ∧
    ∃ t, exec (s.cfg.bitLevel.edge ts) s = .next t ∧
      t.accumulator = (s.accumulator <<< 1) ||| BitVec.ofNat 40 b.toNat ∧
      t.accumulator.toNat = 2 * s.accumulator.toNat + b.toNat ∧
      t.bitCount.toNat = s.bitCount.toNat + 1

/-- The 40th bit, in the step that records it: IDLE, the frame `Interp(accumulator)` whatever its checksum, `OC_FRAME`;
accumulator and counter keep their new values. -/
def Obligations.FortiethBitEmits : Prop :=
  ∀ (s : State) (ts : Tick) (b : Bool), s.Ready → s.phase = .readingBits → s.bitCount = 39 → s.BitLen ts b →
    exec (s.cfg.bitLevel.edge ts) s =
      .next (s.after s.cfg.bitLevel.toLevel ts .idle (BitVec.ofNat 40 (2 * s.accumulator.toNat + b.toNat)) 40 .frame
        (some (interp (BitVec.ofNat 40 (2 * s.accumulator.toNat + b.toNat)))))

/-- Every other event in READING_BITS abandons the frame: IDLE, no emission, accumulator and counter kept. -/
def Obligations.ReadingBitsAborts : Prop :=
  ∀ (s : State) (ts : Tick), s.Ready → s.phase = .readingBits →
    (¬ s.GapLen ts → exec (s.cfg.startLevel.edge ts) s =
      .next (s.after s.cfg.startLevel.toLevel ts .idle s.accumulator s.bitCount .abortProto none)) ∧
    (¬ s.BitLen ts false → ¬ s.BitLen ts true → exec (s.cfg.bitLevel.edge ts) s =
      .next (s.after s.cfg.bitLevel.toLevel ts .idle s.accumulator s.bitCount .abortProto none)) ∧
    exec (.evWdog ts) s =
      .next (s.after .watchdogTimeout ts .idle s.accumulator s.bitCount .abortWdog none)

/-! ## The events by name, with R8's numbers -/

/-- `EV_LOW`: its encoding; the bit level under `START_LEVEL = HIGH`, the start level's role under `LOW`; never an
exception. `asBitLevel` and `asStartLevel` hold R69's and R70's own numbers. -/
def Obligations.EvLowByItsRule : Prop :=
  (∀ w : EventWord, w &&& 0x300000000#34 = 0x000000000#34 → decode w = .evLow (BitVec.ofNat 32 w.toNat)) ∧
  (∀ (s : State) (ts : Tick), s.Ready → s.cfg.DefaultBands →
    (s.cfg.startLevel = .high → exec (.evLow ts) s = .next (s.asBitLevel .low ts)) ∧
    (s.cfg.startLevel = .low → exec (.evLow ts) s = .next (s.asStartLevel .low ts)))

/-- `EV_HIGH`: its encoding; the start level under `START_LEVEL = HIGH`, the bit level's role under `LOW`. -/
def Obligations.EvHighByItsRule : Prop :=
  (∀ w : EventWord, w &&& 0x300000000#34 = 0x100000000#34 → decode w = .evHigh (BitVec.ofNat 32 w.toNat)) ∧
  (∀ (s : State) (ts : Tick), s.Ready → s.cfg.DefaultBands →
    (s.cfg.startLevel = .high → exec (.evHigh ts) s = .next (s.asStartLevel .high ts)) ∧
    (s.cfg.startLevel = .low → exec (.evHigh ts) s = .next (s.asBitLevel .high ts)))

/-- `EV_WDOG`: its encoding, and the reduced step: IDLE in every phase, `last_timestamp` written, no frame, and
`OC_IGNORED` or `OC_ABORT_WDOG` by the old phase, under every configuration and whatever the duration. -/
def Obligations.EvWdogByItsRule : Prop :=
  (∀ w : EventWord, w &&& 0x300000000#34 = 0x200000000#34 → decode w = .evWdog (BitVec.ofNat 32 w.toNat)) ∧
  (∀ (s : State) (ts : Tick), s.Ready → exec (.evWdog ts) s = .next (s.asWatchdog ts))

/-- The reserved level is refused in every state (decision D11): the step gives no state, and a run shows no frame and no
trace of it and takes no later step. -/
def Obligations.ReservedLevelIsRefused : Prop :=
  (∀ (ts : Tick) (s : State), exec (.reservedLvl3 ts) s = .refused .reservedLevel) ∧
  (∀ (s : State) (p : PortInput) (rest : List PortInput),
    s.inputs = p :: rest → p.rst = false → p.evValid = true → p.evWord &&& 0x300000000#34 = 0x300000000#34 →
    step s = .refused .reservedLevel) ∧
  (∀ (k : Nat) (s : State) (w : EventWord) (ws : List EventWord),
    w &&& 0x300000000#34 = 0x300000000#34 → runFrom k s (w :: ws) = ⟨[], [], none⟩)

/-! ## Every event -/

/-- A step is a total function of the configuration, the registers and the event: it completes with an outcome code and, if
`TRACE_EN`, a trace record, it leaves the configuration and the stream, and what else the state holds plays no part. -/
def Obligations.StepIsATotalFunction : Prop :=
  ∀ (i : Instr) (s : State), i.wf = true → s.Ready →
    ∃ t, exec i s = .next t ∧ t.lastTimestamp = i.ts ∧ t.cfg = s.cfg ∧ t.inputs = s.inputs ∧
      (∃ oc, t.outcomeOut = some oc) ∧ (t.traceValid = true ↔ s.cfg.traceEn = true) ∧
      ∀ s', s.SameRegisters s' → s'.cfg = s.cfg →
        ∃ t', exec i s' = .next t' ∧ t.SameRegisters t' ∧ t'.frameOut = t.frameOut ∧
          t'.outcomeOut = t.outcomeOut ∧ t'.traceOut = t.traceOut

/-- Under a configuration that breaks R9 no legal event runs (00_scope.md section 3, decision D28). The model's choice, not
the spec's (assumption 11): that a reset and a step without an event are refused too, and that `malformedConfig` is the
refusal named where the counter is above 40 as well. -/
def Obligations.MalformedConfigurationIsRefused : Prop :=
  ∀ s : State, ¬ s.cfg.WellFormed →
    (∀ i : Instr, i.wf = true → exec i s = .refused .malformedConfig) ∧ (∀ t, step s ≠ .next t)

/-- An event in a state whose counter holds one of the values 41..63 is refused
(93_implementation_defined.md section 2; assumption 7). -/
def Obligations.CountAboveFortyIsRefused : Prop :=
  ∀ (i : Instr) (s : State), i.wf = true → s.cfg.WellFormed → 40 < s.bitCount.toNat →
    exec i s = .refused .undefinedBitCount

/-- `last_timestamp` holds the timestamp of the most recently processed event, or `LAST_TS_RESET` after a reset. -/
def Obligations.LastTimestampIsTheMostRecentEvent : Prop :=
  (∀ c : Config, (State.resetWith c).lastTimestamp = c.lastTsReset) ∧
  (∀ s t : State, step s = .next t →
    (s.inputs = [] → t.lastTimestamp = s.lastTimestamp) ∧
    (∀ (p : PortInput) (rest : List PortInput), s.inputs = p :: rest →
      t.lastTimestamp =
        if p.rst = true then s.cfg.lastTsReset
        else if p.evValid = true then BitVec.ofNat 32 p.evWord.toNat
        else s.lastTimestamp))

/-- The accumulator changes only by a shift left by one with the new bit entered at bit 0, or to 0 when a preamble
completes, and the counter with it. -/
def Obligations.AccumulatorEntersBitsAtBitZero : Prop :=
  ∀ (i : Instr) (s t : State), exec i s = .next t →
    (s.phase = .preambleStarted → t.phase = .readingBits → t.accumulator = 0) ∧
    ((t.accumulator = s.accumulator ∧ t.bitCount = s.bitCount) ∨
      (s.phase = .preambleStarted ∧ t.phase = .readingBits ∧ t.accumulator = 0 ∧ t.bitCount = 0) ∨
      (s.phase = .readingBits ∧ t.bitCount = s.bitCount + 1 ∧
        ∃ b : Bool, t.accumulator = (s.accumulator <<< 1) ||| BitVec.ofNat 40 b.toNat))

/-- Only a bit-recording step that brings `bit_count` to 40 emits, and it leaves IDLE. -/
def Obligations.OnlyTheFortiethBitEmits : Prop :=
  ∀ s t : State, step s = .next t →
    (∀ f, t.frameOut = some f →
      s.phase = .readingBits ∧ t.phase = .idle ∧ t.bitCount = 40 ∧ s.bitCount.toNat = 39 ∧ f = interp t.accumulator ∧
      ∃ p rest ts b, s.inputs = p :: rest ∧ p.rst = false ∧ p.evValid = true ∧
        decode p.evWord = s.cfg.bitLevel.edge ts ∧ s.BitLen ts b) ∧
    (s.phase = .readingBits → t.bitCount = s.bitCount + 1 → t.bitCount = 40 → ∃ f, t.frameOut = some f)

/-- The outcome code of a step is that of its transition, with the number that the code table gives it, and none of the
reserved codes 9 to 15 is produced (60_exceptions.md section 2, decision D14). -/
def Obligations.OutcomeCodeNamesTheTransition : Prop :=
  ∀ (i : Instr) (s t : State) (oc : OutcomeCode), exec i s = .next t → t.outcomeOut = some oc →
    oc.code.toNat ≤ 8 ∧
    match oc with
    | .ignored => oc.code = 0#4 ∧ s.phase = .idle ∧ t.phase = .idle
    | .preStart => oc.code = 1#4 ∧ s.phase = .idle ∧ t.phase = .preambleStarted
    | .preDone => oc.code = 2#4 ∧ s.phase = .preambleStarted ∧ t.phase = .readingBits
    | .gap => oc.code = 3#4 ∧ s.phase = .readingBits ∧ t.phase = .readingBits ∧ t.bitCount = s.bitCount
    | .bit0 => oc.code = 4#4 ∧ s.phase = .readingBits ∧ t.phase = .readingBits ∧
        t.bitCount.toNat = s.bitCount.toNat + 1 ∧ t.accumulator.getLsbD 0 = false
    | .bit1 => oc.code = 5#4 ∧ s.phase = .readingBits ∧ t.phase = .readingBits ∧
        t.bitCount.toNat = s.bitCount.toNat + 1 ∧ t.accumulator.getLsbD 0 = true
    | .frame => oc.code = 6#4 ∧ s.phase = .readingBits ∧ t.phase = .idle ∧ t.bitCount = 40 ∧ t.frameValid = true
    | .abortProto => oc.code = 7#4 ∧ s.phase ≠ .idle ∧ t.phase = .idle ∧ ∃ p ts, i = PinLevel.edge p ts
    | .abortWdog => oc.code = 8#4 ∧ s.phase ≠ .idle ∧ t.phase = .idle ∧ ∃ ts, i = .evWdog ts

/-- A ProtocolViolation is an edge event that matches no admissible observation while reading a preamble or bits, and its
whole effect is the return to IDLE. An edge in IDLE that starts no preamble is none: it is `OC_IGNORED`. -/
def Obligations.ProtocolViolationIsALocalReset : Prop :=
  ∀ (p : PinLevel) (ts : Tick) (s : State), s.Ready →
    (s.phase ≠ .idle → ¬ s.Admits p ts →
      exec (p.edge ts) s = .next (s.after p.toLevel ts .idle s.accumulator s.bitCount .abortProto none)) ∧
    (∀ t, exec (p.edge ts) s = .next t →
      (t.errorKind = some .protocolViolation ↔ s.phase ≠ .idle ∧ ¬ s.Admits p ts)) ∧
    (∀ t, exec (.evWdog ts) s = .next t → t.errorKind ≠ some .protocolViolation) ∧
    (∀ t, s.phase = .idle → exec (p.edge ts) s = .next t → t.outcomeOut ≠ some .preStart →
      t.outcomeOut = some .ignored)

/-- A WatchdogTimeout is an `EV_WDOG` event in PREAMBLE_STARTED or READING_BITS; in IDLE the outcome is `OC_IGNORED`. From a
ProtocolViolation it differs only by its outcome code. -/
def Obligations.WatchdogTimeoutIsALocalReset : Prop :=
  ∀ (ts : Tick) (s : State), s.Ready →
    (s.phase ≠ .idle → exec (.evWdog ts) s =
      .next (s.after .watchdogTimeout ts .idle s.accumulator s.bitCount .abortWdog none)) ∧
    (s.phase = .idle → exec (.evWdog ts) s =
      .next (s.after .watchdogTimeout ts .idle s.accumulator s.bitCount .ignored none)) ∧
    (∀ (i : Instr) (t : State), exec i s = .next t →
      (t.errorKind = some .watchdogTimeout ↔ s.phase ≠ .idle ∧ ∃ ts', i = .evWdog ts'))

/-- A ChecksumMismatch is an emission whose checksum is not the sum; its effect is only the frame's verdict, bit 40 of
`frame_word`, and the registers are those of every emission. -/
def Obligations.ChecksumMismatchOnlyClearsValid : Prop :=
  ∀ (i : Instr) (s t : State), exec i s = .next t →
    (t.errorKind = some .checksumMismatch ↔ ∃ f, t.frameOut = some f ∧ ¬ f.SumMatches) ∧
    (∀ f, t.frameOut = some f →
      (¬ f.SumMatches → f.word.getLsbD 40 = false) ∧ (f.SumMatches → f.word.getLsbD 40 = true) ∧
      t.phase = .idle ∧ t.bitCount = 40 ∧ t.outcomeOut = some .frame)

/-- An abort changes only `phase`, to IDLE, and `last_timestamp` (60_exceptions.md section 4, derived there from R68). -/
def Obligations.AbortSavesNothing : Prop :=
  ∀ (i : Instr) (s t : State), exec i s = .next t →
    (t.outcomeOut = some .abortProto ∨ t.outcomeOut = some .abortWdog) →
    t.phase = .idle ∧ t.lastTimestamp = i.ts ∧ t.accumulator = s.accumulator ∧ t.bitCount = s.bitCount ∧
    t.frameOut = none ∧ t.cfg = s.cfg ∧ t.inputs = s.inputs

/-! ## Trace and ports -/

/-- The trace record of a step shows the event's level and duration and the values after the step, and exists if and only
if `TRACE_EN` (40_edge_events.md section 6, decision D13). -/
def Obligations.TraceShowsValuesAfterTheStep : Prop :=
  ∀ (i : Instr) (s t : State), exec i s = .next t →
    (s.cfg.traceEn = false → t.traceOut = none) ∧
    (s.cfg.traceEn = true → ∃ r, t.traceOut = some r ∧ i.level = some r.level ∧
      r.len.toNat = s.len i.ts ∧ r.phase = t.phase ∧ r.bitCount = t.bitCount ∧ t.outcomeOut = some r.outcome)

/-- The trace has no effect on the state: turning `TRACE_EN` on or off changes no register, frame or outcome of a step
(40_edge_events.md section 6, decision D13). -/
def Obligations.TraceHasNoEffect : Prop :=
  ∀ (i : Instr) (s t : State) (b : Bool), exec i s = .next t →
    ∃ t', exec i { s with cfg := { s.cfg with traceEn := b } } = .next t' ∧
      t.SameRegisters t' ∧ t'.frameOut = t.frameOut ∧ t'.outcomeOut = t.outcomeOut ∧ t'.inputs = t.inputs

/-- The layouts of `frame_word` and `trace_word`, field by field, the codes of the levels that `T_LVL` holds, which are the
`LVL` fields of the events' words, and the status ports (30_encoding.md sections 1 and 4, decisions D2, D12, D13 and D15). -/
def Obligations.PortWordsHoldTheirFields : Prop :=
  (∀ f : Frame,
    f.word.toNat = 2 ^ 40 * f.valid.toNat + 2 ^ 32 * f.humidityHigh.toNat + 2 ^ 24 * f.humidityLow.toNat +
      2 ^ 16 * f.temperatureHigh.toNat + 2 ^ 8 * f.temperatureLow.toNat + f.checksum.toNat) ∧
  (∀ r : TraceRecord,
    r.word.toNat = 2 ^ 44 * r.level.code.toNat + 2 ^ 12 * r.len.toNat + 2 ^ 10 * r.phase.code.toNat +
      2 ^ 4 * r.bitCount.toNat + r.outcome.code.toNat) ∧
  (Level.low.code = 0b00#2 ∧ Level.high.code = 0b01#2 ∧ Level.watchdogTimeout.code = 0b10#2 ∧
    ∀ (w : EventWord) (l : Level), (decode w).level = some l → l.code.toNat = w.toNat / 2 ^ 32) ∧
  (∀ s : State, s.statusBitCount = s.bitCount ∧
    (s.statusPhase = 0b00#2 ↔ s.phase = .idle) ∧ (s.statusPhase = 0b01#2 ↔ s.phase = .preambleStarted) ∧
    (s.statusPhase = 0b10#2 ↔ s.phase = .readingBits))

/-! ## The Frame Interpreter -/

/-- `Interp` splits the accumulator into its five bytes, most significant first. -/
def Obligations.InterpSplitsIntoBytes : Prop :=
  ∀ acc : Accumulator,
    (interp acc).humidityHigh.toNat = acc.toNat / 2 ^ 32 ∧
    (interp acc).humidityLow.toNat = acc.toNat / 2 ^ 24 % 2 ^ 8 ∧
    (interp acc).temperatureHigh.toNat = acc.toNat / 2 ^ 16 % 2 ^ 8 ∧
    (interp acc).temperatureLow.toNat = acc.toNat / 2 ^ 8 % 2 ^ 8 ∧
    (interp acc).checksum.toNat = acc.toNat % 2 ^ 8

/-- The checksum sum is the sum of the four data bytes mod 256, in any order. -/
def Obligations.ChecksumSumWraps : Prop :=
  ∀ hh hl th tl : Byte,
    (checksumSum hh hl th tl).toNat = (hh.toNat + hl.toNat + th.toNat + tl.toNat) % 256 ∧
    checksumSum hl hh th tl = checksumSum hh hl th tl ∧ checksumSum hh th hl tl = checksumSum hh hl th tl ∧
    checksumSum hh hl tl th = checksumSum hh hl th tl ∧ hh + (hl + (th + tl)) = checksumSum hh hl th tl ∧
    checksumSum 0xFF 0xFF 0xFF 0xFF = 0xFC

/-- The verdict of `Interp` is the checksum comparison and nothing else, and `frame_word` is `{valid, acc}`. -/
def Obligations.ValidIsTheChecksumComparison : Prop :=
  ∀ acc : Accumulator,
    ((interp acc).valid = true ↔ (interp acc).SumMatches) ∧
    (interp acc).word = BitVec.ofBool (interp acc).valid ++ acc

/-- A frame whose checksum is wrong is emitted exactly as a valid one is: the same step, the same registers, with
`valid = false`. -/
def Obligations.BadChecksumStillEmits : Prop :=
  ∀ (s : State) (ts : Tick) (b : Bool), s.Ready → s.phase = .readingBits → s.bitCount = 39 → s.BitLen ts b →
    ∃ t f, exec (s.cfg.bitLevel.edge ts) s = .next t ∧ t.frameOut = some f ∧
      (f.valid = true ↔ f.SumMatches) ∧ t.phase = .idle ∧ t.bitCount = 40 ∧ t.lastTimestamp = ts ∧
      t.accumulator = BitVec.ofNat 40 (2 * s.accumulator.toNat + b.toNat) ∧ t.outcomeOut = some .frame

/-- Corner cases of the verdict, and the source's worked example with its sum 0x65, not the stated 0x5D
(42_frame_interpreter.md R103 and R104, derived there; 90_conflicts.md C2). -/
def Obligations.VerdictCornerCases : Prop :=
  (interp 0x0000000000#40).valid = true ∧
  (∀ ck : Byte, (interp (0xFFFFFFFF#32 ++ ck)).valid = true ↔ ck = 0xFC#8) ∧
  (interp 0x8080808000#40).valid = true ∧
  (∀ ck : Byte, (interp (0x46001708#32 ++ ck)).valid = true ↔ ck = 0x65#8)

/-! ## Symmetry and what is not read -/

/-- The two polarities mirror each other: with `START_LEVEL` and the event's level both exchanged, a step gives the same
registers, frame and outcome (00_scope.md section 3, decision D4). -/
def Obligations.PolaritiesMirrorEachOther : Prop :=
  ∀ (s : State) (p : PinLevel) (ts : Tick), s.Ready →
    ∃ t t', exec (p.edge ts) s = .next t ∧
      exec (p.opposite.edge ts) { s with cfg := { s.cfg with startLevel := s.cfg.startLevel.opposite } } = .next t' ∧
      t.SameRegisters t' ∧ t'.frameOut = t.frameOut ∧ t'.outcomeOut = t.outcomeOut

/-- What an abort or an emission leaves in the accumulator and the counter reaches no frame: two states that agree where a
rule reads them emit the same frames in the same steps of every stream (10_state.md section 4, decision D9). -/
def Obligations.LeftoverBitsReachNoFrame : Prop :=
  ∀ (ws : List EventWord) (k : Nat) (s t : State), s.Ready → t.Ready → s.CountBounded → s.SameWhereRead t →
    (runFrom k s ws).frames = (runFrom k t ws).frames ∧
    ((runFrom k s ws).final = none ↔ (runFrom k t ws).final = none)

/-! ## The invariant -/

/-- The invariant holds after reset, under every configuration. -/
def Obligations.ResetMeetsTheInvariant : Prop :=
  ∀ c : Config, (State.resetWith c).Inv

/-- Every step keeps the invariant: the counter's and the accumulator's bounds, and that the ports show what the registers
hold (10_state.md section 3, 30_encoding.md section 4). -/
def Obligations.EveryStepKeepsTheInvariant : Prop :=
  ∀ s t : State, s.Inv → step s = .next t → t.Inv

/-- In every state reachable from reset, `bit_count ≤ 40`, under every configuration and every stream of presentations. -/
def Obligations.BitCountNeverExceedsForty : Prop :=
  ∀ (c : Config) (s : State), Reachable c s → s.bitCount.toNat ≤ 40

/-- In every reachable state in READING_BITS, `bit_count ≤ 39` and `accumulator < 2^bit_count`
(10_state.md section 3, derived there). -/
def Obligations.ReadingBitsBoundsTheAccumulator : Prop :=
  ∀ (c : Config) (s : State), Reachable c s → s.phase = .readingBits →
    s.bitCount.toNat ≤ 39 ∧ s.accumulator.toNat < 2 ^ s.bitCount.toNat

/-! ## Streams of events -/

/-- The frame is big-endian in bytes and bits: after a preamble, any stream that carries 40 bits, with any gaps, emits one
frame, in its last step, whose bytes are the bits received, the first in the most significant place. -/
def Obligations.FrameIsMostSignificantFirst : Prop :=
  ∀ (k : Nat) (s : State) (ws : List EventWord) (bits : List Bool) (last : Tick),
    s.cfg.WellFormed → s.phase = .readingBits → s.bitCount = 0 → s.accumulator = 0 →
    CarriesBits s.cfg s.lastTimestamp ws bits last → bits.length = 40 →
    ∃ f t, (runFrom k s ws).frames = [(k + ws.length - 1, f)] ∧ (runFrom k s ws).final = some t ∧
      t.phase = .idle ∧ t.bitCount = 40 ∧ t.lastTimestamp = last ∧
      (∀ i < 40, t.accumulator.getMsbD i = bits.getD i false) ∧
      (∀ i < 8, f.humidityHigh.getMsbD i = bits.getD i false ∧ f.humidityLow.getMsbD i = bits.getD (8 + i) false ∧
        f.temperatureHigh.getMsbD i = bits.getD (16 + i) false ∧
        f.temperatureLow.getMsbD i = bits.getD (24 + i) false ∧ f.checksum.getMsbD i = bits.getD (32 + i) false)

/-- The notation's PREAMBLE and FRAME, from IDLE, decode to exactly the five bytes they were written from, valid when the
checksum is the sum, for both polarities (30_encoding.md section 5; 95_test_vectors.md W7). -/
def Obligations.FrameNotationRoundTrip : Prop :=
  ∀ (k : Nat) (s : State) (hi hf ti tf ck : Byte), s.Ready → s.cfg.DefaultBands → s.phase = .idle →
    (runFrom k s (assembleEvents s.lastTimestamp
        (Line.expand s.cfg .preamble ++ Line.expand s.cfg (.frame hi hf ti tf ck)))).frames =
      [(k + 81, ⟨hi, hf, ti, tf, ck,
        decide (ck.toNat = (hi.toNat + hf.toNat + ti.toNat + tf.toNat) % 256)⟩)]

/-- A frame spoiled before its 40th bit, by an edge that is no admissible observation or by a watchdog timeout, emits
nothing and leaves IDLE. The spoiling event may follow a bit, any number of gaps or the preamble itself
(40_edge_events.md section 5; 95_test_vectors.md W3 and W5). -/
def Obligations.SpoiledFrameEmitsNothing : Prop :=
  ∀ (k : Nat) (s : State) (ws gs : List EventWord) (bits : List Bool) (mid last : Tick),
    s.cfg.WellFormed → s.phase = .readingBits → s.bitCount = 0 →
    CarriesBits s.cfg s.lastTimestamp ws bits mid → Gaps s.cfg mid gs last → bits.length < 40 →
    ∃ u, (runFrom k s (ws ++ gs)).final = some u ∧ u.phase = .readingBits ∧ u.bitCount.toNat = bits.length ∧
      u.lastTimestamp = last ∧
      ∀ (i : Instr), ((∃ p ts, i = PinLevel.edge p ts ∧ ¬ u.Admits p ts) ∨ ∃ ts, i = .evWdog ts) →
        (runFrom k s ((ws ++ gs) ++ [encode i])).frames = [] ∧
        ∃ t, (runFrom k s ((ws ++ gs) ++ [encode i])).final = some t ∧ t.phase = .idle ∧ t.bitCount = u.bitCount

/-- A run emits at most one frame per 42 events: the two of a preamble and the 40 bits (90_conflicts.md C6,
40_edge_events.md R73 to R81). -/
def Obligations.EachFrameTakesFortyTwoEvents : Prop :=
  ∀ (c : Config) (ws : List EventWord), 42 * (run c ws).frames.length ≤ ws.length

/-- The ticks of a frame under the default bands: a sensor-shaped frame, 82 alternating edges from IDLE whose last step
emits, takes at most 5988; a frame without gaps, a start-level edge and 41 bit-level edges, takes at least 742
(70_reset_and_hazards.md section 4, R138, derived there). -/
def Obligations.FrameDurationBounds : Prop :=
  (∀ (k : Nat) (s : State) (ws : List EventWord) (f : Frame), s.Ready → s.cfg.DefaultBands → s.phase = .idle →
    ws.length = 82 → Alternates s.cfg.startLevel ws → (k + 81, f) ∈ (runFrom k s ws).frames →
    totalLen s.lastTimestamp ws ≤ 5988) ∧
  (∀ (k : Nat) (s : State) (ts : Tick) (ws : List EventWord) (f : Frame), s.Ready → s.cfg.DefaultBands →
    s.phase = .idle → ws.length = 41 → (∀ w ∈ ws, ∃ u, w = encode (s.cfg.bitLevel.edge u)) →
    (k + 41, f) ∈ (runFrom k s (encode (s.cfg.startLevel.edge ts) :: ws)).frames →
    742 ≤ totalLen s.lastTimestamp (encode (s.cfg.startLevel.edge ts) :: ws))

/-- Every stream of legal events runs to its end, under every well-formed configuration, and its last state meets the
invariant (60_exceptions.md section 6: "In each case the block must produce a result defined by its rules"). -/
def Obligations.LegalStreamsRunToTheirEnd : Prop :=
  ∀ (c : Config) (ws : List EventWord), c.WellFormed → LegalStream ws →
    ∃ t, (run c ws).final = some t ∧ t.Inv ∧ ((run c ws).traces.length = if c.traceEn = true then ws.length else 0)

/-- The first event after reset has `len = TS` under the default: a start-level edge at 71 to 94 starts a preamble, and
every other first event is ignored (70_reset_and_hazards.md R128, derived there). -/
def Obligations.FirstEventAfterReset : Prop :=
  ∀ (c : Config) (i : Instr), c.WellFormed → c.DefaultBands → c.lastTsReset = 0 → i.wf = true →
    ∃ t, step ((State.resetWith c).present (encode i)) = .next t ∧
      ((∃ ts, i = c.startLevel.edge ts ∧ 71 ≤ ts.toNat ∧ ts.toNat ≤ 94) →
        t.phase = .preambleStarted ∧ t.outcomeOut = some .preStart) ∧
      ((¬ ∃ ts, i = c.startLevel.edge ts ∧ 71 ≤ ts.toNat ∧ ts.toNat ≤ 94) →
        t.phase = .idle ∧ t.outcomeOut = some .ignored)

/-- A step is not idempotent: a second copy of an edge has `len = 0`, which lies in no band of R8's, so the block is in IDLE
after it and emits nothing (20_memory.md R44, derived there). -/
def Obligations.DuplicatedEdgeLiesInNoBand : Prop :=
  ∀ (p : PinLevel) (ts : Tick) (s t : State), s.CountBounded → s.cfg.DefaultBands → exec (p.edge ts) s = .next t →
    t.len ts = 0 ∧
    exec (p.edge ts) t =
      .next (t.afterPhase p.toLevel ts .idle (if t.phase = .idle then .ignored else .abortProto))

/-- After any abort the next preamble is recognised, whatever the accumulator and the counter hold
(70_reset_and_hazards.md R140(e), derived there; 60_exceptions.md section 4). -/
def Obligations.PreambleIsRecognisedAfterAnAbort : Prop :=
  ∀ (i : Instr) (s u : State) (t1 t2 : Tick), s.CountBounded → exec i s = .next u →
    (u.outcomeOut = some .abortProto ∨ u.outcomeOut = some .abortWdog) → u.PreambleLen t1 →
    ∃ v, exec (u.cfg.startLevel.edge t1) u = .next v ∧ v.phase = .preambleStarted ∧
      (v.PreambleLen t2 →
        exec (u.cfg.bitLevel.edge t2) v = .next (v.after u.cfg.bitLevel.toLevel t2 .readingBits 0 0 .preDone none))

/-- A trigger's two edges, the second at least 19000 ticks after the first, under the defaults: in IDLE neither changes the
phase, and from every phase the second leaves IDLE. The hazard of R133 stands beside it: in READING_BITS a first edge in a bit
band records a bit, and as the 40th it emits a frame (60_exceptions.md R123 and 70_reset_and_hazards.md R133, derived there;
whether the host delivers these edges is open, D24). -/
def Obligations.TriggerEdgesLeaveIdle : Prop :=
  ∀ (s : State) (t1 t2 : Tick), s.Ready → s.CountBounded → s.cfg.DefaultBands → s.cfg.startLevel = .high →
    19000 ≤ elapsed t1 t2 →
    ∃ u v, exec (.evLow t1) s = .next u ∧ exec (.evHigh t2) u = .next v ∧
      v.phase = .idle ∧ v.frameOut = none ∧ (s.phase = .idle → u.phase = .idle ∧ u.frameOut = none) ∧
      (u.phase ≠ .idle → v.outcomeOut = some .abortProto) ∧
      (s.phase = .readingBits → ∀ b, s.BitLen t1 b →
        u.bitCount.toNat = s.bitCount.toNat + 1 ∧ u.accumulator.toNat = 2 * s.accumulator.toNat + b.toNat ∧
        (s.bitCount.toNat = 39 → u.frameOut = some (interp u.accumulator)) ∧
        (s.bitCount.toNat ≠ 39 → u.frameOut = none))

/-- The duration of the edge after a timeout is measured from the timeout's tick (41_timeout_event.md section on R91,
decision D7): in IDLE a start-level edge in the preamble band after that tick starts a preamble. -/
def Obligations.TimeoutTickIsTheNextBase : Prop :=
  ∀ (s : State) (tw ts : Tick), s.Ready →
    ∃ u, exec (.evWdog tw) s = .next u ∧ u.phase = .idle ∧ u.len ts = elapsed tw ts ∧
      (s.cfg.preLoX < elapsed tw ts → elapsed tw ts < s.cfg.preHiX →
        exec (s.cfg.startLevel.edge ts) u =
          .next (u.afterPhase s.cfg.startLevel.toLevel ts .preambleStarted .preStart))

/-- The duration is the true elapsed tick count mod 2^32, so one wrap of the tick counter between two events changes
nothing (40_edge_events.md R85, derived there; decision D6). -/
def Obligations.DurationAcrossAWrap : Prop :=
  ∀ (s : State) (e : Nat),
    (s.duration (BitVec.ofNat 32 (s.lastTimestamp.toNat + e))).toNat = e % 2 ^ 32 ∧
    s.len (BitVec.ofNat 32 (s.lastTimestamp.toNat + e)) = e % 2 ^ 32
end

