-- ==== Sys2Proof/Laws/Decode.lean ====
section
/-! SUPPORT. The fields of an event word that `{LVL, TS}` was assembled to, and which event a word is, by its level code. -/

namespace Sys2Proof

theorem lvlField_eventWordOf (l : BitVec 2) (ts : Tick) : lvlField (eventWordOf l ts) = l := by
  simp only [lvlField, eventWordOf]
  ext i hi
  simp only [BitVec.getElem_extractLsb', BitVec.getLsbD_append]
  simp only [show ¬ 32 + i < 32 by omega, if_false, show 32 + i - 32 = i by omega]
  exact BitVec.getLsbD_eq_getElem hi

theorem tsField_eventWordOf (l : BitVec 2) (ts : Tick) : tsField (eventWordOf l ts) = ts := by
  simp only [tsField, eventWordOf]
  ext i hi
  simp only [BitVec.getElem_extractLsb', BitVec.getLsbD_append, Nat.zero_add, if_pos hi]
  exact BitVec.getLsbD_eq_getElem hi

/-- A word is its two fields. -/
theorem eventWordOf_fields (w : EventWord) : eventWordOf (lvlField w) (tsField w) = w := by
  simp only [lvlField, tsField, eventWordOf]
  ext i hi
  simp only [BitVec.getElem_append, BitVec.getElem_extractLsb', Nat.zero_add]
  split
  · exact BitVec.getLsbD_eq_getElem hi
  · simp only [show 32 + (i - 32) = i by omega]; exact BitVec.getLsbD_eq_getElem hi

theorem tsField_toNat (w : EventWord) : (tsField w).toNat = w.toNat % 2 ^ 32 := by
  simp [tsField, BitVec.extractLsb'_toNat]

theorem tsField_eq_ofNat (w : EventWord) : tsField w = BitVec.ofNat 32 w.toNat := by
  apply BitVec.eq_of_toNat_eq
  rw [tsField_toNat, BitVec.toNat_ofNat]

theorem lvlField_toNat (w : EventWord) : (lvlField w).toNat = w.toNat / 2 ^ 32 := by
  simp only [lvlField, BitVec.extractLsb'_toNat, Nat.shiftRight_eq_div_pow]
  have := w.isLt
  omega

/-- A 2-bit field has one of four values. -/
theorem lvl_cases (l : BitVec 2) : l = 0b00#2 ∨ l = 0b01#2 ∨ l = 0b10#2 ∨ l = 0b11#2 := by
  have h := l.isLt
  rcases (show l.toNat = 0 ∨ l.toNat = 1 ∨ l.toNat = 2 ∨ l.toNat = 3 by omega) with h | h | h | h
  · exact .inl (BitVec.eq_of_toNat_eq h)
  · exact .inr (.inl (BitVec.eq_of_toNat_eq h))
  · exact .inr (.inr (.inl (BitVec.eq_of_toNat_eq h)))
  · exact .inr (.inr (.inr (BitVec.eq_of_toNat_eq h)))

theorem decode_of_low {w : EventWord} (h : lvlField w = 0b00#2) : decode w = .evLow (tsField w) := by
  simp [decode, h]

theorem decode_of_high {w : EventWord} (h : lvlField w = 0b01#2) : decode w = .evHigh (tsField w) := by
  simp [decode, h]

theorem decode_of_wdog {w : EventWord} (h : lvlField w = 0b10#2) : decode w = .evWdog (tsField w) := by
  simp [decode, h]

theorem decode_of_reserved {w : EventWord} (h : lvlField w = 0b11#2) : decode w = .reservedLvl3 (tsField w) := by
  simp [decode, h]

/-- The decoder on an assembled word, by its level code. -/
theorem decode_eventWordOf (l : BitVec 2) (ts : Tick) :
    decode (eventWordOf l ts) =
      if l = 0b00#2 then .evLow ts else if l = 0b01#2 then .evHigh ts
      else if l = 0b10#2 then .evWdog ts else .reservedLvl3 ts := by
  simp only [decode, lvlField_eventWordOf, tsField_eventWordOf]

/-- The decoder on the word of an edge event. -/
theorem decode_encode_edge (p : PinLevel) (ts : Tick) : decode (encode (p.edge ts)) = p.edge ts := by
  cases p <;> simp [PinLevel.edge, encode, decode_eventWordOf]

/-- The event of a level's word. -/
theorem decode_level_word (p : PinLevel) (ts : Tick) : decode (eventWordOf p.toLevel.code ts) = p.edge ts := by
  cases p <;> simp [PinLevel.edge, PinLevel.toLevel, Level.code, decode_eventWordOf]

/-- The mask of spec/opcode_table.json keeps exactly the field `LVL`. -/
theorem and_mask (w : EventWord) : w &&& 0x300000000#34 = eventWordOf (lvlField w) 0#32 := by
  have hm : (0x300000000#34 : EventWord) = 0b11#2 ++ 0#32 := by decide
  conv_lhs => rw [← eventWordOf_fields w]
  rw [eventWordOf, hm, BitVec.and_append, BitVec.and_zero]
  rcases lvl_cases (lvlField w) with h | h | h | h <;> rw [h] <;> rfl

/-- A word is a row's of spec/opcode_table.json exactly when its level code is the row's. -/
theorem mask_match_iff (w : EventWord) (l : BitVec 2) :
    w &&& 0x300000000#34 = eventWordOf l 0#32 ↔ lvlField w = l := by
  rw [and_mask]
  refine ⟨fun h => ?_, fun h => by rw [h]⟩
  simpa only [lvlField_eventWordOf] using congrArg lvlField h

end Sys2Proof
end

