-- ==== Sys2Proof/Laws/State.lean ====
section
/-! SUPPORT. One lemma per field per update of State: what each named operation of Machine/Ops.lean leaves in each field. -/

namespace Sys2Proof.Machine

variable (s : State)

section
variable (p : Phase)
@[simp] theorem State.setPhase_phase : (s.setPhase p).phase = p := rfl
@[simp] theorem State.setPhase_lastTimestamp : (s.setPhase p).lastTimestamp = s.lastTimestamp := rfl
@[simp] theorem State.setPhase_accumulator : (s.setPhase p).accumulator = s.accumulator := rfl
@[simp] theorem State.setPhase_bitCount : (s.setPhase p).bitCount = s.bitCount := rfl
@[simp] theorem State.setPhase_frameOut : (s.setPhase p).frameOut = s.frameOut := rfl
@[simp] theorem State.setPhase_outcomeOut : (s.setPhase p).outcomeOut = s.outcomeOut := rfl
@[simp] theorem State.setPhase_traceOut : (s.setPhase p).traceOut = s.traceOut := rfl
@[simp] theorem State.setPhase_cfg : (s.setPhase p).cfg = s.cfg := rfl
@[simp] theorem State.setPhase_inputs : (s.setPhase p).inputs = s.inputs := rfl
end

section
variable (ts : Tick)
@[simp] theorem State.setLastTimestamp_phase : (s.setLastTimestamp ts).phase = s.phase := rfl
@[simp] theorem State.setLastTimestamp_lastTimestamp : (s.setLastTimestamp ts).lastTimestamp = ts := rfl
@[simp] theorem State.setLastTimestamp_accumulator : (s.setLastTimestamp ts).accumulator = s.accumulator := rfl
@[simp] theorem State.setLastTimestamp_bitCount : (s.setLastTimestamp ts).bitCount = s.bitCount := rfl
@[simp] theorem State.setLastTimestamp_frameOut : (s.setLastTimestamp ts).frameOut = s.frameOut := rfl
@[simp] theorem State.setLastTimestamp_outcomeOut : (s.setLastTimestamp ts).outcomeOut = s.outcomeOut := rfl
@[simp] theorem State.setLastTimestamp_traceOut : (s.setLastTimestamp ts).traceOut = s.traceOut := rfl
@[simp] theorem State.setLastTimestamp_cfg : (s.setLastTimestamp ts).cfg = s.cfg := rfl
@[simp] theorem State.setLastTimestamp_inputs : (s.setLastTimestamp ts).inputs = s.inputs := rfl
end

section
variable (a : Accumulator)
@[simp] theorem State.setAccumulator_phase : (s.setAccumulator a).phase = s.phase := rfl
@[simp] theorem State.setAccumulator_lastTimestamp : (s.setAccumulator a).lastTimestamp = s.lastTimestamp := rfl
@[simp] theorem State.setAccumulator_accumulator : (s.setAccumulator a).accumulator = a := rfl
@[simp] theorem State.setAccumulator_bitCount : (s.setAccumulator a).bitCount = s.bitCount := rfl
@[simp] theorem State.setAccumulator_frameOut : (s.setAccumulator a).frameOut = s.frameOut := rfl
@[simp] theorem State.setAccumulator_outcomeOut : (s.setAccumulator a).outcomeOut = s.outcomeOut := rfl
@[simp] theorem State.setAccumulator_traceOut : (s.setAccumulator a).traceOut = s.traceOut := rfl
@[simp] theorem State.setAccumulator_cfg : (s.setAccumulator a).cfg = s.cfg := rfl
@[simp] theorem State.setAccumulator_inputs : (s.setAccumulator a).inputs = s.inputs := rfl
end

section
variable (n : BitCount)
@[simp] theorem State.setBitCount_phase : (s.setBitCount n).phase = s.phase := rfl
@[simp] theorem State.setBitCount_lastTimestamp : (s.setBitCount n).lastTimestamp = s.lastTimestamp := rfl
@[simp] theorem State.setBitCount_accumulator : (s.setBitCount n).accumulator = s.accumulator := rfl
@[simp] theorem State.setBitCount_bitCount : (s.setBitCount n).bitCount = n := rfl
@[simp] theorem State.setBitCount_frameOut : (s.setBitCount n).frameOut = s.frameOut := rfl
@[simp] theorem State.setBitCount_outcomeOut : (s.setBitCount n).outcomeOut = s.outcomeOut := rfl
@[simp] theorem State.setBitCount_traceOut : (s.setBitCount n).traceOut = s.traceOut := rfl
@[simp] theorem State.setBitCount_cfg : (s.setBitCount n).cfg = s.cfg := rfl
@[simp] theorem State.setBitCount_inputs : (s.setBitCount n).inputs = s.inputs := rfl
end

section
variable (f : Frame)
@[simp] theorem State.emit_phase : (s.emit f).phase = s.phase := rfl
@[simp] theorem State.emit_lastTimestamp : (s.emit f).lastTimestamp = s.lastTimestamp := rfl
@[simp] theorem State.emit_accumulator : (s.emit f).accumulator = s.accumulator := rfl
@[simp] theorem State.emit_bitCount : (s.emit f).bitCount = s.bitCount := rfl
@[simp] theorem State.emit_frameOut : (s.emit f).frameOut = some f := rfl
@[simp] theorem State.emit_outcomeOut : (s.emit f).outcomeOut = s.outcomeOut := rfl
@[simp] theorem State.emit_traceOut : (s.emit f).traceOut = s.traceOut := rfl
@[simp] theorem State.emit_cfg : (s.emit f).cfg = s.cfg := rfl
@[simp] theorem State.emit_inputs : (s.emit f).inputs = s.inputs := rfl
end

section
variable (c : OutcomeCode)
@[simp] theorem State.setOutcome_phase : (s.setOutcome c).phase = s.phase := rfl
@[simp] theorem State.setOutcome_lastTimestamp : (s.setOutcome c).lastTimestamp = s.lastTimestamp := rfl
@[simp] theorem State.setOutcome_accumulator : (s.setOutcome c).accumulator = s.accumulator := rfl
@[simp] theorem State.setOutcome_bitCount : (s.setOutcome c).bitCount = s.bitCount := rfl
@[simp] theorem State.setOutcome_frameOut : (s.setOutcome c).frameOut = s.frameOut := rfl
@[simp] theorem State.setOutcome_outcomeOut : (s.setOutcome c).outcomeOut = some c := rfl
@[simp] theorem State.setOutcome_traceOut : (s.setOutcome c).traceOut = s.traceOut := rfl
@[simp] theorem State.setOutcome_cfg : (s.setOutcome c).cfg = s.cfg := rfl
@[simp] theorem State.setOutcome_inputs : (s.setOutcome c).inputs = s.inputs := rfl
end

section
variable (ps : List PortInput)
@[simp] theorem State.setInputs_phase : (s.setInputs ps).phase = s.phase := rfl
@[simp] theorem State.setInputs_lastTimestamp : (s.setInputs ps).lastTimestamp = s.lastTimestamp := rfl
@[simp] theorem State.setInputs_accumulator : (s.setInputs ps).accumulator = s.accumulator := rfl
@[simp] theorem State.setInputs_bitCount : (s.setInputs ps).bitCount = s.bitCount := rfl
@[simp] theorem State.setInputs_frameOut : (s.setInputs ps).frameOut = s.frameOut := rfl
@[simp] theorem State.setInputs_outcomeOut : (s.setInputs ps).outcomeOut = s.outcomeOut := rfl
@[simp] theorem State.setInputs_traceOut : (s.setInputs ps).traceOut = s.traceOut := rfl
@[simp] theorem State.setInputs_cfg : (s.setInputs ps).cfg = s.cfg := rfl
@[simp] theorem State.setInputs_inputs : (s.setInputs ps).inputs = ps := rfl
end

section
@[simp] theorem State.clearOutputs_phase : (s.clearOutputs).phase = s.phase := rfl
@[simp] theorem State.clearOutputs_lastTimestamp : (s.clearOutputs).lastTimestamp = s.lastTimestamp := rfl
@[simp] theorem State.clearOutputs_accumulator : (s.clearOutputs).accumulator = s.accumulator := rfl
@[simp] theorem State.clearOutputs_bitCount : (s.clearOutputs).bitCount = s.bitCount := rfl
@[simp] theorem State.clearOutputs_frameOut : (s.clearOutputs).frameOut = none := rfl
@[simp] theorem State.clearOutputs_outcomeOut : (s.clearOutputs).outcomeOut = none := rfl
@[simp] theorem State.clearOutputs_traceOut : (s.clearOutputs).traceOut = none := rfl
@[simp] theorem State.clearOutputs_cfg : (s.clearOutputs).cfg = s.cfg := rfl
@[simp] theorem State.clearOutputs_inputs : (s.clearOutputs).inputs = s.inputs := rfl
end

section
variable (lvl : Level) (len : Tick)
@[simp] theorem State.trace_phase : (s.trace lvl len).phase = s.phase := rfl
@[simp] theorem State.trace_lastTimestamp : (s.trace lvl len).lastTimestamp = s.lastTimestamp := rfl
@[simp] theorem State.trace_accumulator : (s.trace lvl len).accumulator = s.accumulator := rfl
@[simp] theorem State.trace_bitCount : (s.trace lvl len).bitCount = s.bitCount := rfl
@[simp] theorem State.trace_frameOut : (s.trace lvl len).frameOut = s.frameOut := rfl
@[simp] theorem State.trace_outcomeOut : (s.trace lvl len).outcomeOut = s.outcomeOut := rfl
@[simp] theorem State.trace_cfg : (s.trace lvl len).cfg = s.cfg := rfl
@[simp] theorem State.trace_inputs : (s.trace lvl len).inputs = s.inputs := rfl
end

section
variable (lvl : Level) (ts : Tick) (p : Phase) (a : Accumulator) (n : BitCount) (oc : OutcomeCode) (f : Option Frame)
@[simp] theorem State.after_phase : (s.after lvl ts p a n oc f).phase = p := rfl
@[simp] theorem State.after_lastTimestamp : (s.after lvl ts p a n oc f).lastTimestamp = ts := rfl
@[simp] theorem State.after_accumulator : (s.after lvl ts p a n oc f).accumulator = a := rfl
@[simp] theorem State.after_bitCount : (s.after lvl ts p a n oc f).bitCount = n := rfl
@[simp] theorem State.after_frameOut : (s.after lvl ts p a n oc f).frameOut = f := rfl
@[simp] theorem State.after_outcomeOut : (s.after lvl ts p a n oc f).outcomeOut = some oc := rfl
@[simp] theorem State.after_cfg : (s.after lvl ts p a n oc f).cfg = s.cfg := rfl
@[simp] theorem State.after_inputs : (s.after lvl ts p a n oc f).inputs = s.inputs := rfl
end

section
variable (c : Config)
@[simp] theorem State.resetWith_phase : (State.resetWith c).phase = .idle := rfl
@[simp] theorem State.resetWith_lastTimestamp : (State.resetWith c).lastTimestamp = c.lastTsReset := rfl
@[simp] theorem State.resetWith_accumulator : (State.resetWith c).accumulator = 0 := rfl
@[simp] theorem State.resetWith_bitCount : (State.resetWith c).bitCount = 0 := rfl
@[simp] theorem State.resetWith_frameOut : (State.resetWith c).frameOut = none := rfl
@[simp] theorem State.resetWith_outcomeOut : (State.resetWith c).outcomeOut = none := rfl
@[simp] theorem State.resetWith_traceOut : (State.resetWith c).traceOut = none := rfl
@[simp] theorem State.resetWith_cfg : (State.resetWith c).cfg = c := rfl
@[simp] theorem State.resetWith_inputs : (State.resetWith c).inputs = [] := rfl
end

end Sys2Proof.Machine
end

