-- ==== Sys2Proof/Laws/Ops.lean ====
section
/-! SUPPORT. One lemma per shared operation, saying once everything it can do: the operands, the bands, the transition of each
phase as an `after` state, the guarded event, the meanings, the step, and a run. -/

namespace Sys2Proof

/-! ## Operands and bands -/

theorem elapsed_lt (last ts : Tick) : elapsed last ts < 2 ^ 32 := Nat.mod_lt _ (by decide)

@[simp] theorem elapsed_self (t : Tick) : elapsed t t = 0 := by
  unfold elapsed
  rw [Nat.add_sub_cancel_left, Nat.mod_self]

@[simp] theorem PinLevel.opposite_opposite (p : PinLevel) : p.opposite.opposite = p := by cases p <;> rfl

theorem PinLevel.opposite_ne (p : PinLevel) : p.opposite ≠ p := by cases p <;> decide

theorem PinLevel.eq_or_opposite (p q : PinLevel) : p = q ∨ p = q.opposite := by cases p <;> cases q <;> decide

@[simp] theorem Config.isStart_toLevel (c : Config) (p : PinLevel) :
    c.isStart p.toLevel = decide (p = c.startLevel) := by
  unfold Config.isStart; cases p <;> cases c.startLevel <;> rfl

@[simp] theorem Config.isBit_toLevel (c : Config) (p : PinLevel) :
    c.isBit p.toLevel = decide (p = c.bitLevel) := by
  unfold Config.isBit; cases p <;> cases c.bitLevel <;> rfl

@[simp] theorem Config.isStart_watchdog (c : Config) : c.isStart .watchdogTimeout = false := by
  unfold Config.isStart; cases c.startLevel <;> rfl

@[simp] theorem Config.isBit_watchdog (c : Config) : c.isBit .watchdogTimeout = false := by
  unfold Config.isBit; cases c.bitLevel <;> rfl

theorem Config.bitLevel_ne_startLevel (c : Config) : c.bitLevel ≠ c.startLevel := c.startLevel.opposite_ne

theorem Config.startLevel_ne_bitLevel (c : Config) : c.startLevel ≠ c.bitLevel := (c.bitLevel_ne_startLevel).symm

@[simp] theorem PinLevel.edge_ts (p : PinLevel) (ts : Tick) : (p.edge ts).ts = ts := by cases p <;> rfl

@[simp] theorem PinLevel.edge_level (p : PinLevel) (ts : Tick) : (p.edge ts).level = some p.toLevel := by cases p <;> rfl

@[simp] theorem PinLevel.edge_wf (p : PinLevel) (ts : Tick) : (p.edge ts).wf = true := by cases p <;> rfl

theorem PinLevel.edge_inj {p q : PinLevel} {t u : Tick} (h : p.edge t = q.edge u) : p = q ∧ t = u := by
  cases p <;> cases q <;> simp_all [PinLevel.edge]

theorem PinLevel.edge_ne_wdog (p : PinLevel) (t u : Tick) : p.edge t ≠ .evWdog u := by
  cases p <;> simp [PinLevel.edge]

/-- A legal event is an edge or a watchdog timeout. -/
theorem Instr.wf_cases {i : Instr} (h : i.wf = true) : (∃ p ts, i = PinLevel.edge p ts) ∨ ∃ ts, i = .evWdog ts := by
  cases i with
  | evLow ts => exact .inl ⟨.low, ts, rfl⟩
  | evHigh ts => exact .inl ⟨.high, ts, rfl⟩
  | evWdog ts => exact .inr ⟨ts, rfl⟩
  | reservedLvl3 ts => simp [Instr.wf] at h

/-- A legal event has a level. -/
theorem Instr.level_of_wf {i : Instr} (h : i.wf = true) : ∃ l, i.level = some l := by
  obtain ⟨p, ts, rfl⟩ | ⟨ts, rfl⟩ := Instr.wf_cases h
  · exact ⟨_, p.edge_level ts⟩
  · exact ⟨_, rfl⟩

namespace Machine

theorem State.duration_toNat (s : State) (ts : Tick) : (s.duration ts).toNat = s.len ts := by
  have := s.lastTimestamp.isLt
  simp only [State.duration, State.len, elapsed, BitVec.toNat_sub]
  congr 1
  omega

theorem State.duration_eq_ofNat (s : State) (ts : Tick) : s.duration ts = BitVec.ofNat 32 (s.len ts) := by
  rw [← State.duration_toNat, BitVec.ofNat_toNat, BitVec.setWidth_eq]

theorem inPreambleBand_iff (s : State) (ts : Tick) :
    s.cfg.inPreambleBand (s.duration ts) = true ↔ s.PreambleLen ts := by
  simp only [Config.inPreambleBand, State.duration_toNat, decide_eq_true_eq]

theorem inGapBand_iff (s : State) (ts : Tick) : s.cfg.inGapBand (s.duration ts) = true ↔ s.GapLen ts := by
  simp only [Config.inGapBand, State.duration_toNat, decide_eq_true_eq]

theorem inZeroBand_iff (s : State) (ts : Tick) : s.cfg.inZeroBand (s.duration ts) = true ↔ s.BitLen ts false := by
  simp [Config.inZeroBand, State.duration_toNat]

theorem inOneBand_iff (s : State) (ts : Tick) : s.cfg.inOneBand (s.duration ts) = true ↔ s.BitLen ts true := by
  simp [Config.inOneBand, State.duration_toNat]

/-- Under a well-formed configuration no duration lies in both bit bands (R76). -/
theorem bitLen_unique {s : State} {ts : Tick} {b b' : Bool} (hw : s.cfg.WellFormed) (h : s.BitLen ts b)
    (h' : s.BitLen ts b') : b = b' := by
  obtain ⟨-, -, ⟨-, hd, -⟩, -, -⟩ := hw
  cases b <;> cases b' <;> simp [State.BitLen] at * <;> omega

/-! ## The accumulator -/

/-- The number of two fields side by side. -/
theorem append_toNat {m n : Nat} (x : BitVec m) (y : BitVec n) : (x ++ y).toNat = x.toNat * 2 ^ n + y.toNat := by
  rw [BitVec.toNat_append, ← Nat.shiftLeft_add_eq_or_of_lt y.isLt, Nat.shiftLeft_eq]

theorem shiftIn_eq (acc : Accumulator) (b : Bool) : shiftIn acc b = (acc <<< 1) ||| BitVec.ofNat 40 b.toNat := by
  unfold shiftIn; cases b <;> rfl

theorem shiftIn_toNat (acc : Accumulator) (b : Bool) : (shiftIn acc b).toNat = (2 * acc.toNat + b.toNat) % 2 ^ 40 := by
  have hd : (acc <<< 1) &&& (BitVec.ofBool b).setWidth 40 = 0#40 := by
    ext i hi
    cases b <;> simp
    omega
  have := acc.isLt
  have hb : ((BitVec.ofBool b).setWidth 40).toNat = b.toNat := by cases b <;> rfl
  have hb1 : b.toNat < 2 := by cases b <;> decide
  rw [shiftIn, ← BitVec.add_eq_or_of_and_eq_zero _ _ hd, BitVec.toNat_add, hb, BitVec.toNat_shiftLeft,
    Nat.shiftLeft_eq]
  omega

theorem shiftIn_eq_entered (s : State) (b : Bool) : shiftIn s.accumulator b = s.entered b := by
  apply BitVec.eq_of_toNat_eq
  rw [shiftIn_toNat, State.entered, BitVec.toNat_ofNat]

/-! ## The transition of each phase -/

variable {s t : State} {lvl : Level} {ts : Tick}

theorem bitCount_add_one (h : s.bitCount.toNat ≤ 40) : (s.bitCount + 1).toNat = s.bitCount.toNat + 1 := by
  rw [BitVec.toNat_add]
  simp only [BitVec.ofNat_eq_ofNat, BitVec.toNat_ofNat]
  omega

theorem transition_of_idle (h : s.phase = .idle) :
    s.transition lvl ts =
      if s.cfg.isStart lvl = true ∧ s.PreambleLen ts then s.afterPhase lvl ts .preambleStarted .preStart
      else s.afterPhase lvl ts .idle .ignored := by
  have hb := inPreambleBand_iff s ts
  simp only [State.transition, State.stepPhase, State.setLastTimestamp_phase, State.clearOutputs_phase, h,
    State.stepIdle, State.setLastTimestamp_cfg, State.clearOutputs_cfg, Bool.and_eq_true, hb]
  split <;>
    simp [State.trace, State.setOutcome, State.setPhase, State.setLastTimestamp, State.clearOutputs,
      State.afterPhase, State.after, State.duration_eq_ofNat]

theorem transition_of_preamble (h : s.phase = .preambleStarted) :
    s.transition lvl ts =
      if s.cfg.isBit lvl = true ∧ s.PreambleLen ts then s.after lvl ts .readingBits 0 0 .preDone none
      else s.afterPhase lvl ts .idle (abortCode lvl) := by
  have hb := inPreambleBand_iff s ts
  simp only [State.transition, State.stepPhase, State.setLastTimestamp_phase, State.clearOutputs_phase, h,
    State.stepPreamble, State.setLastTimestamp_cfg, State.clearOutputs_cfg, Bool.and_eq_true, hb]
  split <;>
    simp [State.trace, State.setOutcome, State.setPhase, State.setLastTimestamp, State.clearOutputs, State.abort,
      State.setAccumulator, State.setBitCount, State.afterPhase, State.after, State.duration_eq_ofNat]

/-- Recording a bit, after the prologue and with the trace. -/
theorem trace_recordBit (hw : s.cfg.WellFormed) (hc : s.bitCount.toNat ≤ 40) (h : s.phase = .readingBits) (b : Bool) :
    (((s.clearOutputs.setLastTimestamp ts).recordBit b).trace lvl (s.duration ts)) = s.afterRecord lvl ts b := by
  obtain ⟨-, -, -, -, hf, ha⟩ := hw
  have hn := bitCount_add_one hc
  have hbc : s.bitCount + 1#6 = BitVec.ofNat 6 (s.bitCount.toNat + 1) := by
    apply BitVec.eq_of_toNat_eq
    rw [show (1#6 : BitCount) = 1 from rfl, hn, BitVec.toNat_ofNat]
    omega
  simp only [State.recordBit, State.setLastTimestamp_bitCount, State.clearOutputs_bitCount, hn,
    State.setLastTimestamp_cfg, State.clearOutputs_cfg, hf, ha, State.setLastTimestamp_accumulator,
    State.clearOutputs_accumulator, shiftIn_eq_entered, State.afterRecord]
  split
  · next h40 =>
    rw [h40] at hbc
    simp [State.trace, State.setOutcome, State.setPhase, State.setLastTimestamp, State.clearOutputs, State.emit,
      State.setAccumulator, State.setBitCount, State.after, State.afterFrame, State.duration_eq_ofNat, hbc]
  · simp [State.trace, State.setOutcome, State.setLastTimestamp, State.clearOutputs,
      State.setAccumulator, State.setBitCount, State.after, State.afterBit, State.duration_eq_ofNat, hbc, h, bitCode]

theorem transition_of_reading (hr : s.Ready) (h : s.phase = .readingBits) :
    s.transition lvl ts =
      if s.cfg.isStart lvl = true ∧ s.GapLen ts then s.afterPhase lvl ts .readingBits .gap
      else if s.cfg.isBit lvl = true ∧ s.BitLen ts false then s.afterRecord lvl ts false
      else if s.cfg.isBit lvl = true ∧ s.BitLen ts true then s.afterRecord lvl ts true
      else s.afterPhase lvl ts .idle (abortCode lvl) := by
  have hg := inGapBand_iff s ts
  have h0 := inZeroBand_iff s ts
  have h1 := inOneBand_iff s ts
  have hrec := fun b => trace_recordBit (lvl := lvl) (ts := ts) hr.1 hr.2 h b
  simp only [State.transition, State.stepPhase, State.setLastTimestamp_phase, State.clearOutputs_phase, h,
    State.stepReading, State.setLastTimestamp_cfg, State.clearOutputs_cfg, Bool.and_eq_true, hg, h0, h1]
  split
  · simp [State.trace, State.setOutcome, State.setLastTimestamp, State.clearOutputs, State.afterPhase, State.after,
      State.duration_eq_ofNat, h]
  split
  · exact hrec false
  split
  · exact hrec true
  · simp [State.trace, State.setOutcome, State.setPhase, State.setLastTimestamp, State.clearOutputs, State.abort,
      State.afterPhase, State.after, State.duration_eq_ofNat]

/-- Everything the transition of a legal event can do: nine cases, each with the whole next state and its guard (R68). -/
theorem transition_cases (hr : s.Ready) (lvl : Level) (ts : Tick) :
    (s.phase = .idle ∧ s.cfg.isStart lvl = true ∧ s.PreambleLen ts ∧
      s.transition lvl ts = s.afterPhase lvl ts .preambleStarted .preStart) ∨
    (s.phase = .idle ∧ ¬ (s.cfg.isStart lvl = true ∧ s.PreambleLen ts) ∧
      s.transition lvl ts = s.afterPhase lvl ts .idle .ignored) ∨
    (s.phase = .preambleStarted ∧ s.cfg.isBit lvl = true ∧ s.PreambleLen ts ∧
      s.transition lvl ts = s.after lvl ts .readingBits 0 0 .preDone none) ∨
    (s.phase = .preambleStarted ∧ ¬ (s.cfg.isBit lvl = true ∧ s.PreambleLen ts) ∧
      s.transition lvl ts = s.afterPhase lvl ts .idle (abortCode lvl)) ∨
    (s.phase = .readingBits ∧ s.cfg.isStart lvl = true ∧ s.GapLen ts ∧
      s.transition lvl ts = s.afterPhase lvl ts .readingBits .gap) ∨
    (s.phase = .readingBits ∧ s.bitCount.toNat + 1 ≠ 40 ∧ ∃ b, s.cfg.isBit lvl = true ∧ s.BitLen ts b ∧
      s.transition lvl ts = s.afterBit lvl ts b) ∨
    (s.phase = .readingBits ∧ s.bitCount.toNat + 1 = 40 ∧ ∃ b, s.cfg.isBit lvl = true ∧ s.BitLen ts b ∧
      s.transition lvl ts = s.afterFrame lvl ts b) ∨
    (s.phase = .readingBits ∧ ¬ (s.cfg.isStart lvl = true ∧ s.GapLen ts) ∧
      (∀ b, ¬ (s.cfg.isBit lvl = true ∧ s.BitLen ts b)) ∧
      s.transition lvl ts = s.afterPhase lvl ts .idle (abortCode lvl)) := by
  have hrec : ∀ b, s.afterRecord lvl ts b =
      if s.bitCount.toNat + 1 = 40 then s.afterFrame lvl ts b else s.afterBit lvl ts b := fun _ => rfl
  cases hp : s.phase with
  | idle =>
    rw [transition_of_idle hp]
    split
    · next h => exact .inl ⟨rfl, h.1, h.2, rfl⟩
    · next h => exact .inr (.inl ⟨rfl, h, rfl⟩)
  | preambleStarted =>
    rw [transition_of_preamble hp]
    split
    · next h => exact .inr (.inr (.inl ⟨rfl, h.1, h.2, rfl⟩))
    · next h => exact .inr (.inr (.inr (.inl ⟨rfl, h, rfl⟩)))
  | readingBits =>
    have e := transition_of_reading (lvl := lvl) (ts := ts) hr hp
    split at e
    · next h => exact .inr (.inr (.inr (.inr (.inl ⟨rfl, h.1, h.2, e⟩))))
    split at e
    · next h =>
      rw [hrec] at e
      split at e
      · next h40 => exact .inr (.inr (.inr (.inr (.inr (.inr (.inl ⟨rfl, h40, false, h.1, h.2, e⟩))))))
      · next h40 => exact .inr (.inr (.inr (.inr (.inr (.inl ⟨rfl, h40, false, h.1, h.2, e⟩)))))
    split at e
    · next h =>
      rw [hrec] at e
      split at e
      · next h40 => exact .inr (.inr (.inr (.inr (.inr (.inr (.inl ⟨rfl, h40, true, h.1, h.2, e⟩))))))
      · next h40 => exact .inr (.inr (.inr (.inr (.inr (.inl ⟨rfl, h40, true, h.1, h.2, e⟩)))))
    · next hg h0 h1 =>
      exact .inr (.inr (.inr (.inr (.inr (.inr (.inr ⟨rfl, hg, fun b => by cases b <;> assumption, e⟩))))))

/-- What every legal event does, whatever its case: an `after` state, so all but the four registers and the outputs is as
before. -/
theorem transition_after (hr : s.Ready) (lvl : Level) (ts : Tick) :
    ∃ p a n oc f, s.transition lvl ts = s.after lvl ts p a n oc f := by
  rcases transition_cases hr lvl ts with ⟨-, -, -, h⟩ | ⟨-, -, h⟩ | ⟨-, -, -, h⟩ | ⟨-, -, h⟩ | ⟨-, -, -, h⟩ |
    ⟨-, -, b, -, -, h⟩ | ⟨-, -, b, -, -, h⟩ | ⟨-, -, -, h⟩ <;> exact ⟨_, _, _, _, _, h⟩

theorem transition_cfg (hr : s.Ready) : (s.transition lvl ts).cfg = s.cfg := by
  obtain ⟨_, _, _, _, _, e⟩ := transition_after hr lvl ts
  rw [e, State.after_cfg]

theorem transition_inputs (hr : s.Ready) : (s.transition lvl ts).inputs = s.inputs := by
  obtain ⟨_, _, _, _, _, e⟩ := transition_after hr lvl ts
  rw [e, State.after_inputs]

theorem transition_lastTimestamp (hr : s.Ready) : (s.transition lvl ts).lastTimestamp = ts := by
  obtain ⟨_, _, _, _, _, e⟩ := transition_after hr lvl ts
  rw [e, State.after_lastTimestamp]

/-! ## Guards, meanings and the step -/

theorem whenConfigured_next {k : Host.Outcome State Fault Refusal} :
    s.whenConfigured k = .next t ↔ s.cfg.WellFormed ∧ k = .next t := by
  unfold State.whenConfigured
  split
  · next h => exact ⟨fun e => ⟨h, e⟩, fun e => e.2⟩
  · next h => exact ⟨fun e => by simp at e, fun e => absurd e.1 h⟩

theorem processEvent_of_ready (h : s.Ready) : s.processEvent lvl ts = .next (s.transition lvl ts) := by
  simp only [State.processEvent, State.whenConfigured, if_pos h.1, if_pos h.2]

theorem processEvent_next : s.processEvent lvl ts = .next t ↔ s.Ready ∧ t = s.transition lvl ts := by
  unfold State.processEvent
  rw [whenConfigured_next]
  by_cases h : s.bitCount.toNat ≤ 40 <;> simp [h, State.Ready, eq_comm]

theorem exec_edge (p : PinLevel) : exec (p.edge ts) s = s.processEvent p.toLevel ts := by cases p <;> rfl

theorem exec_wdog : exec (.evWdog ts) s = s.processEvent .watchdogTimeout ts := rfl

/-- When a meaning answers a next state, and which. -/
theorem exec_next {i : Instr} :
    exec i s = .next t ↔ s.Ready ∧ ∃ lvl, i.level = some lvl ∧ t = s.transition lvl i.ts := by
  cases i with
  | evLow ts => simp [exec, execEvLow, processEvent_next, Instr.level, Instr.ts]
  | evHigh ts => simp [exec, execEvHigh, processEvent_next, Instr.level, Instr.ts]
  | evWdog ts => simp [exec, execEvWdog, processEvent_next, Instr.level, Instr.ts]
  | reservedLvl3 ts => simp [exec, execReservedLvl3, Instr.level]

theorem applyReset_next :
    s.applyReset = .next t ↔ s.cfg.WellFormed ∧
      t = { State.resetWith s.cfg with inputs := s.inputs } := by
  unfold State.applyReset
  rw [whenConfigured_next]
  simp only [Host.Outcome.next.injEq, State.clearOutputs, State.resetWith, eq_comm]

theorem noStep_next : s.noStep = .next t ↔ s.cfg.WellFormed ∧ t = s.clearOutputs := by
  unfold State.noStep
  rw [whenConfigured_next]
  simp only [Host.Outcome.next.injEq, eq_comm]

/-- The step, by what the host presents. -/
theorem step_of_empty (h : s.inputs = []) : step s = s.noStep := by simp only [step, h]

theorem step_of_cons {p : PortInput} {rest : List PortInput} (h : s.inputs = p :: rest) :
    step s = stepInput p (s.setInputs rest) := by simp only [step, h]

theorem stepInput_event {p : PortInput} (hr : p.rst = false) (hv : p.evValid = true) :
    stepInput p s = exec (decode p.evWord) s := by simp [stepInput, hr, hv]

theorem step_present (w : EventWord) : step (s.present w) = exec (decode w) (s.setInputs []) := rfl

/-- Everything a step can do, when it answers a next state. -/
theorem step_next_cases (h : step s = .next t) :
    s.cfg.WellFormed ∧
    ((s.inputs = [] ∧ t = s.clearOutputs) ∨
     ∃ p rest, s.inputs = p :: rest ∧
      ((p.rst = true ∧ t = { State.resetWith s.cfg with inputs := rest }) ∨
       (p.rst = false ∧ p.evValid = true ∧ exec (decode p.evWord) (s.setInputs rest) = .next t) ∨
       (p.rst = false ∧ p.evValid = false ∧ t = (s.setInputs rest).clearOutputs))) := by
  cases hi : s.inputs with
  | nil =>
    rw [step_of_empty hi, noStep_next] at h
    exact ⟨h.1, .inl ⟨rfl, h.2⟩⟩
  | cons p rest =>
    rw [step_of_cons hi, stepInput] at h
    split at h
    · next hr =>
      rw [applyReset_next] at h
      exact ⟨h.1, .inr ⟨p, rest, rfl, .inl ⟨hr, h.2⟩⟩⟩
    · next hr =>
      have hr : p.rst = false := by simpa using hr
      split at h
      · next hv => exact ⟨(exec_next.1 h).1.1, .inr ⟨p, rest, rfl, .inr (.inl ⟨hr, hv, h⟩)⟩⟩
      · next hv =>
        rw [noStep_next] at h
        exact ⟨h.1, .inr ⟨p, rest, rfl, .inr (.inr ⟨hr, by simpa using hv, h.2⟩)⟩⟩

/-! ## Runs -/

@[simp] theorem runFrom_nil (k : Nat) : runFrom k s [] = ⟨[], [], some s⟩ := rfl

theorem runFrom_cons_next {w : EventWord} (h : step (s.present w) = .next t) (k : Nat) (ws : List EventWord) :
    runFrom k s (w :: ws) =
      ⟨t.frameOut.toList.map (fun f => (k, f)) ++ (runFrom (k + 1) t ws).frames,
       t.traceOut.toList ++ (runFrom (k + 1) t ws).traces, (runFrom (k + 1) t ws).final⟩ := by
  simp only [runFrom, h]

theorem runFrom_cons_refused {w : EventWord} {r : Refusal} (h : step (s.present w) = .refused r) (k : Nat)
    (ws : List EventWord) : runFrom k s (w :: ws) = ⟨[], [], none⟩ := by
  simp only [runFrom, h]

/-- A run takes the step of a legal event and goes on. -/
theorem runFrom_cons_event {w : EventWord} (hr : s.Ready) (h : (decode w).level = some lvl) (k : Nat)
    (ws : List EventWord) :
    runFrom k s (w :: ws) =
      ⟨((s.setInputs []).transition lvl (decode w).ts).frameOut.toList.map (fun f => (k, f)) ++
        (runFrom (k + 1) ((s.setInputs []).transition lvl (decode w).ts) ws).frames,
       ((s.setInputs []).transition lvl (decode w).ts).traceOut.toList ++
        (runFrom (k + 1) ((s.setInputs []).transition lvl (decode w).ts) ws).traces,
       (runFrom (k + 1) ((s.setInputs []).transition lvl (decode w).ts) ws).final⟩ :=
  runFrom_cons_next ((step_present w).trans (exec_next.2 ⟨hr, lvl, h, rfl⟩)) k ws

/-- The host's run takes a step and goes on. -/
theorem core_run_succ_next (h : step s = .next t) (n : Nat) : core.run (n + 1) s = core.run n t := by
  have e : core.step s = .next t := h
  simp only [Host.Core.run]
  rw [e]

/-- A run over a stream goes on from the state its first part leaves. -/
theorem runFrom_append (ws vs : List EventWord) :
    ∀ (k : Nat) (s : State), runFrom k s (ws ++ vs) =
      match (runFrom k s ws).final with
      | some t =>
        ⟨(runFrom k s ws).frames ++ (runFrom (k + ws.length) t vs).frames,
         (runFrom k s ws).traces ++ (runFrom (k + ws.length) t vs).traces, (runFrom (k + ws.length) t vs).final⟩
      | none => runFrom k s ws := by
  induction ws with
  | nil => intro k s; simp
  | cons w ws ih =>
    intro k s
    cases h : step (s.present w) with
    | next t =>
      rw [List.cons_append, runFrom_cons_next h, runFrom_cons_next h, ih, List.length_cons,
        show k + (ws.length + 1) = k + 1 + ws.length by omega]
      dsimp only
      split <;> simp [*]
    | fault r => cases r
    | refused r => rw [List.cons_append, runFrom_cons_refused h, runFrom_cons_refused h]

end Machine

end Sys2Proof
end

