-- ==== Sys2Proof/Laws/PerInstr.lean ====
section
/-! SUPPORT. One claim per event, as syntax: the encoder puts the event's level code and its timestamp, and nothing else,
into the fields of its word (spec/30_encoding.md R51, R52). -/

namespace Sys2Proof.Laws.EncodedFields

/-- The code column of R52, the reserved code among it. -/
def lvlCode (i : Instr) : BitVec 2 :=
  match i.level with
  | some l => l.code
  | none => 0b11#2

/-- The fields of the event's word are its level code and its timestamp. -/
def Statement (i : Instr) : Prop := lvlField (encode i) = lvlCode i ∧ tsField (encode i) = i.ts

theorem evLow (ts : Tick) : Statement (.evLow ts) := ⟨lvlField_eventWordOf _ _, tsField_eventWordOf _ _⟩

theorem evHigh (ts : Tick) : Statement (.evHigh ts) := ⟨lvlField_eventWordOf _ _, tsField_eventWordOf _ _⟩

theorem evWdog (ts : Tick) : Statement (.evWdog ts) := ⟨lvlField_eventWordOf _ _, tsField_eventWordOf _ _⟩

theorem reservedLvl3 (ts : Tick) : Statement (.reservedLvl3 ts) := ⟨lvlField_eventWordOf _ _, tsField_eventWordOf _ _⟩

end Sys2Proof.Laws.EncodedFields
end

