-- ==== Sys2Proof/Tests/Slice0.lean ====
section
/-! SUPPORT. Small tests. Expected results are the spec's own: the encodings of 30_encoding.md and spec/opcode_table.json and
the vectors of 95_test_vectors.md, each named by its id. After them, one witness theorem for each obligation that has
hypotheses, at the boundary values of the default bands. -/

namespace Sys2Proof.Tests

open Sys2Proof Sys2Proof.Machine

/-! ## WellFormed: each check refuses a configuration that breaks it (R9), and the reserved event (R57) -/

theorem test_default_wellFormed : Config.default.WellFormed := by decide

theorem test_preambleBand_refused :
    ¬ { Config.default with preLoX := 70, preHiX := 71 }.WellFormed ∧
    ¬ { Config.default with preLoX := 95, preHiX := 70 }.preambleBandOk := by decide

theorem test_gapBand_refused : ¬ { Config.default with gapLo := 66 }.WellFormed ∧
    ¬ { Config.default with gapLo := 66 }.gapBandOk := by decide

theorem test_bitBands_refused :
    ¬ { Config.default with zeroLo := 36 }.bitBandsOk ∧ ¬ { Config.default with zeroHi := 60 }.bitBandsOk ∧
    ¬ { Config.default with oneLo := 81 }.bitBandsOk ∧ ¬ { Config.default with zeroHi := 60 }.WellFormed := by decide

theorem test_boundsFit_refused :
    ¬ { Config.default with preHiX := 2 ^ 32 }.boundsFit ∧ ¬ { Config.default with gapHi := 2 ^ 32 }.boundsFit ∧
    ¬ { Config.default with oneHi := 2 ^ 32 }.boundsFit ∧ ¬ { Config.default with oneHi := 2 ^ 32 }.WellFormed := by decide

theorem test_frameWidth_refused :
    ¬ { Config.default with frameBits := 39 }.frameWidthOk ∧
    ¬ { Config.default with accW := 39, frameBits := 39 }.WellFormed := by decide

theorem test_reserved_not_wf : (Instr.reservedLvl3 0x1050).wf = false ∧ (Instr.evLow 0x1050).wf = true := by decide

/-! ## Decoding: words written out from `{LVL[33:32], TS[31:0]}` -/

theorem test_decode_evLow : decode 0b0000000000000000000001000001010000#34 = .evLow 0x00001050 := by decide

theorem test_decode_evHigh : decode 0b0100000000000000000001000001000111#34 = .evHigh 0x00001047 := by decide

theorem test_decode_evWdog : decode 0b1000000000000000001101001101010000#34 = .evWdog 0x0000D350 := by decide

theorem test_decode_reserved : decode 0b1100000000000000000001000001010000#34 = .reservedLvl3 0x00001050 := by decide

/-- Both ends of `TS` reach the operand, and neither reaches `LVL`. -/
theorem test_decode_ts_ends :
    decode 0b0110000000000000000000000000000001#34 = .evHigh 0x80000001 ∧
    decode 0b0011111111111111111111111111111111#34 = .evLow 0xFFFFFFFF := by decide

theorem test_encode_words :
    encode (.evLow 0x1050) = 0x000001050#34 ∧ encode (.evHigh 0x50) = 0x100000050#34 ∧
    encode (.evWdog 0xD350) = 0x20000D350#34 ∧ encode (.reservedLvl3 0x1050) = 0x300001050#34 := by decide

/-- Each row of spec/opcode_table.json accepts its own pattern and no other row's, and the decoder names the row. -/
theorem test_opcode_rows :
    opcodeTable.map (fun r => (decode r.pattern).mnemonic) = ["EV_LOW", "EV_HIGH", "EV_WDOG", "RESERVED_LVL3"] ∧
    opcodeTable.Pairwise (fun r q => r.accepts q.pattern = false) := by decide

theorem test_decodeTableWord :
    decodeTableWord 40 0x20000D350 = some (.evWdog 0xD350) ∧ decodeTableWord 40 0x400000000 = none := by decide

/-! ## One step -/

/-- The default machine between events, at the tick the vectors start from. -/
def at1000 (p : Phase) (a : Accumulator) (n : BitCount) : State :=
  { State.reset with phase := p, lastTimestamp := 0x1000, accumulator := a, bitCount := n }

/-- The same with `START_LEVEL = LOW`. -/
def low1000 (p : Phase) (a : Accumulator) (n : BitCount) : State :=
  { at1000 p a n with cfg := { Config.default with startLevel := .low } }

/-- The registers and the outcome a step leaves. -/
def leaves (o : Host.Outcome State Fault Refusal) :
    Option (Phase × Tick × Accumulator × BitCount × Option OutcomeCode) :=
  match o with
  | .next t => some (t.phase, t.lastTimestamp, t.accumulator, t.bitCount, t.outcomeOut)
  | .fault _ => none
  | .refused _ => none

/-- The words a step puts on the frame and trace ports. -/
def shows (o : Host.Outcome State Fault Refusal) : Option (Option (BitVec 41) × Option (BitVec 46)) :=
  match o with
  | .next t => some (t.frameWord, t.traceWord)
  | .fault _ => none
  | .refused _ => none

/-- E30 and F2: the 40th bit, its frame, and the trace fields LOW, 70, IDLE, 40, `OC_FRAME`. -/
theorem test_evLow_frame :
    leaves (exec (.evLow 0x1046) (at1000 .readingBits 0x23000B8432 39)) =
      some (.idle, 0x1046, 0x4600170865, 40, some .frame) ∧
    shows (exec (.evLow 0x1046) (at1000 .readingBits 0x23000B8432 39)) =
      some (some 0x14600170865#41, some (0b00#2 ++ (70#32 ++ (0b00#2 ++ (40#6 ++ 6#4))))) := by decide

/-- E31: the 40th bit makes the checksum wrong; the frame is emitted with `valid = false`. -/
theorem test_evLow_bad_checksum :
    shows (exec (.evLow 0x1019) (at1000 .readingBits 0x23000B8432 39)) =
      some (some 0x04600170864#41, some (0b00#2 ++ (25#32 ++ (0b00#2 ++ (40#6 ++ 6#4))))) := by decide

/-- E9: the duration across a wrap of the tick counter. -/
theorem test_evHigh_wrap :
    leaves (exec (.evHigh 0x20) { at1000 .idle 0 0 with lastTimestamp := 0xFFFFFFD0 }) =
      some (.preambleStarted, 0x20, 0, 0, some .preStart) := by decide

/-- E20: one tick past the gap band. -/
theorem test_evHigh_gap_too_long :
    leaves (exec (.evHigh 0x1042) (at1000 .readingBits 5 3)) = some (.idle, 0x1042, 5, 3, some .abortProto) := by decide

/-- E28 and E7: a timeout in READING_BITS and in IDLE. -/
theorem test_evWdog :
    leaves (exec (.evWdog 0xD350) (at1000 .readingBits 5 3)) = some (.idle, 0xD350, 5, 3, some .abortWdog) ∧
    leaves (exec (.evWdog 0xD350) (at1000 .idle 0x123456789A 40)) =
      some (.idle, 0xD350, 0x123456789A, 40, some .ignored) := ⟨by decide, by decide⟩

/-- X1. -/
theorem test_reserved_refused :
    exec (.reservedLvl3 0x1050) (at1000 .readingBits 5 3) = .refused .reservedLevel := rfl

/-- X2 and X3: reset, and reset with an event. -/
theorem test_rst :
    leaves (stepInput ⟨true, false, 0⟩ { at1000 .readingBits 5 3 with lastTimestamp := 0x1234 }) =
      some (.idle, 0, 0, 0, none) ∧
    leaves (stepInput ⟨true, true, 0x00000124D#34⟩ { at1000 .readingBits 5 3 with lastTimestamp := 0x1234 }) =
      some (.idle, 0, 0, 0, none) := ⟨by decide, by decide⟩

/-- X4: the first event after reset, placed where a step takes its next event. -/
theorem test_first_event :
    leaves (step (State.reset.withFetchWord 40 0x100000050)) = some (.preambleStarted, 0x50, 0, 0, some .preStart) := by decide

/-- X6: neither an event nor a reset. -/
theorem test_no_step :
    leaves (stepInput ⟨false, false, 0x000001050#34⟩ (at1000 .readingBits 5 3)) =
      some (.readingBits, 0x1000, 5, 3, none) ∧
    shows (stepInput ⟨false, false, 0x000001050#34⟩ (at1000 .readingBits 5 3)) = some (none, none) := by decide

/-- F4 and F5. -/
theorem test_checksum_wraps :
    (interp 0xFFFFFFFFFC#40).word = 0x1FFFFFFFFFC#41 ∧ (interp 0xFFFFFFFFFD#40).valid = false := by decide

/-- The first lines of P1 in the notation: words 1 to 5. -/
theorem test_notation :
    assembleText Config.default
        ["TRIGGER @0x00010000".toList, "SENSOR_ACK ; the sensor answers".toList, "PREAMBLE".toList] =
      some [0x000010000#34, 0x100014A38#34, 0x000014A56#34, 0x100014AA6#34, 0x000014AF6#34] := by decide

/-! ## Witnesses: each obligation's hypotheses can be met -/

theorem witness_NumbersDecodeOrAreRejected : 2 ^ 34 ≤ 17179869184 ∧ 17179869183 < 2 ^ 34 ∧ 0 < 2 ^ 34 := by decide

/-- A state whose next presentation is the given one. -/
def presenting (p : PortInput) (s : State) : State := { s with inputs := [p, PortInput.event 0] }

theorem witness_StepRunsTheDecodedEvent :
    ∃ (s : State) (p : PortInput) (rest : List PortInput) (i : Instr),
      s.inputs = p :: rest ∧ p.rst = false ∧ p.evValid = true ∧ decode p.evWord = i :=
  ⟨presenting ⟨false, true, 0x000001050#34⟩ State.reset, _, _, .evLow 0x1050, rfl, rfl, rfl, by decide⟩

/-- Words of the three levels. -/
theorem witness_PortWordsHoldTheirFields :
    (decode 0x000001050#34).level = some .low ∧ (decode 0x100001050#34).level = some .high ∧
    (decode 0x20000D350#34).level = some .watchdogTimeout := by decide

theorem witness_ResetInputWins :
    ∃ (s : State) (p : PortInput) (rest : List PortInput),
      s.cfg.WellFormed ∧ s.inputs = p :: rest ∧ p.rst = true ∧ p.evValid = true :=
  ⟨presenting ⟨true, true, 0x00000124D#34⟩ (at1000 .readingBits 5 3), _, _, by decide, rfl, rfl, rfl⟩

theorem witness_NoEventIsNoStep :
    (∃ s : State, ∃ p rest, s.cfg.WellFormed ∧ s.inputs = p :: rest ∧ p.rst = false ∧ p.evValid = false) ∧
    (∃ s : State, s.cfg.WellFormed ∧ (∀ p ∈ s.inputs, p.rst = false ∧ p.evValid = false) ∧ 2 ≤ s.inputs.length ∧ 0 < 2) :=
  ⟨⟨{ at1000 .readingBits 5 3 with inputs := [⟨false, false, 7⟩] }, _, _, by decide, rfl, rfl, rfl⟩,
   ⟨{ at1000 .readingBits 5 3 with inputs := [⟨false, false, 7⟩, ⟨false, false, 8⟩] }, by decide⟩⟩

/-- Nothing presented, and a run past the last presentation. -/
theorem witness_EmptyStreamIsNoStep :
    (at1000 .readingBits 5 3).cfg.WellFormed ∧ (at1000 .readingBits 5 3).inputs = [] ∧
    (∃ s : State, s.cfg.WellFormed ∧ (∀ p ∈ s.inputs, p.rst = false ∧ p.evValid = false) ∧ s.inputs.length ≤ 3 ∧ 0 < 3) :=
  ⟨by decide, rfl, { at1000 .readingBits 5 3 with inputs := [⟨false, false, 7⟩] }, by decide⟩

/-- Both ends of the preamble band, and the first durations outside it. -/
theorem witness_PreambleStarts :
    ((at1000 .idle 5 3).Ready ∧ (at1000 .idle 5 3).phase = .idle ∧ (at1000 .idle 5 3).cfg.DefaultBands) ∧
    ((at1000 .idle 5 3).PreambleLen 0x1047 ∧ (at1000 .idle 5 3).PreambleLen 0x105E) ∧
    ((at1000 .idle 5 3).len 0x1046 = 70 ∧ (at1000 .idle 5 3).len 0x1047 = 71) ∧
    ((at1000 .idle 5 3).len 0x105E = 94 ∧ (at1000 .idle 5 3).len 0x105F = 95) :=
  ⟨by decide, by decide, by decide, by decide⟩

theorem witness_IdleIgnoresEveryOtherEvent :
    (at1000 .idle 5 3).Ready ∧ (at1000 .idle 5 3).phase = .idle ∧
    ¬ (at1000 .idle 5 3).PreambleLen 0x1046 ∧ ¬ (at1000 .idle 5 3).PreambleLen 0x105F := by decide

theorem witness_PreambleCompletes :
    ((at1000 .preambleStarted 5 40).Ready ∧ (at1000 .preambleStarted 5 40).phase = .preambleStarted ∧ (at1000 .preambleStarted 5 40).cfg.DefaultBands) ∧
    ((at1000 .preambleStarted 5 40).PreambleLen 0x1047 ∧ (at1000 .preambleStarted 5 40).PreambleLen 0x105E) ∧
    ((at1000 .preambleStarted 5 40).len 0x1046 = 70 ∧ (at1000 .preambleStarted 5 40).len 0x1047 = 71) ∧
    ((at1000 .preambleStarted 5 40).len 0x105E = 94 ∧ (at1000 .preambleStarted 5 40).len 0x105F = 95) :=
  ⟨by decide, by decide, by decide, by decide⟩

theorem witness_PreambleAborts :
    (at1000 .preambleStarted 5 40).Ready ∧ (at1000 .preambleStarted 5 40).phase = .preambleStarted ∧
    ¬ (at1000 .preambleStarted 5 40).PreambleLen 0x1046 ∧ ¬ (at1000 .preambleStarted 5 40).PreambleLen 0x105F := by decide

theorem witness_GapRecordsNoBit :
    ((at1000 .readingBits 5 3).Ready ∧ (at1000 .readingBits 5 3).phase = .readingBits ∧ (at1000 .readingBits 5 3).cfg.DefaultBands) ∧
    ((at1000 .readingBits 5 3).GapLen 0x1023 ∧ (at1000 .readingBits 5 3).GapLen 0x1041) ∧
    ((at1000 .readingBits 5 3).len 0x1022 = 34 ∧ (at1000 .readingBits 5 3).len 0x1023 = 35) ∧
    ((at1000 .readingBits 5 3).len 0x1041 = 65 ∧ (at1000 .readingBits 5 3).len 0x1042 = 66) :=
  ⟨by decide, by decide, by decide, by decide⟩

/-- Both ends of the 0 band, with the counter before and at the 40th bit. -/
theorem witness_ZeroBitIsRecorded (n : BitCount) (h : n = 38 ∨ n = 39) :
    ((at1000 .readingBits 5 n).Ready ∧ (at1000 .readingBits 5 n).phase = .readingBits ∧ (at1000 .readingBits 5 n).cfg.DefaultBands) ∧
    ((at1000 .readingBits 5 n).cfg.zeroLo ≤ (at1000 .readingBits 5 n).len 0x100F ∧ (at1000 .readingBits 5 n).len 0x1023 ≤ (at1000 .readingBits 5 n).cfg.zeroHi) ∧
    ((at1000 .readingBits 5 n).len 0x100E = 14 ∧ (at1000 .readingBits 5 n).len 0x100F = 15) ∧
    ((at1000 .readingBits 5 n).len 0x1023 = 35 ∧ (at1000 .readingBits 5 n).len 0x1024 = 36) ∧
    ((at1000 .readingBits 5 n).bitCount.toNat + 1 ≠ 40 ↔ n = 38) := by
  rcases h with rfl | rfl <;> exact ⟨by decide, by decide, by decide, by decide, by decide⟩

/-- Both ends of the 1 band, with the counter before and at the 40th bit. -/
theorem witness_OneBitIsRecorded (n : BitCount) (h : n = 38 ∨ n = 39) :
    ((at1000 .readingBits 5 n).Ready ∧ (at1000 .readingBits 5 n).phase = .readingBits ∧ (at1000 .readingBits 5 n).cfg.DefaultBands) ∧
    ((at1000 .readingBits 5 n).cfg.oneLo ≤ (at1000 .readingBits 5 n).len 0x103C ∧ (at1000 .readingBits 5 n).len 0x1050 ≤ (at1000 .readingBits 5 n).cfg.oneHi) ∧
    ((at1000 .readingBits 5 n).len 0x103B = 59 ∧ (at1000 .readingBits 5 n).len 0x103C = 60) ∧
    ((at1000 .readingBits 5 n).len 0x1050 = 80 ∧ (at1000 .readingBits 5 n).len 0x1051 = 81) ∧
    ((at1000 .readingBits 5 n).bitCount.toNat + 1 ≠ 40 ↔ n = 38) := by
  rcases h with rfl | rfl <;> exact ⟨by decide, by decide, by decide, by decide, by decide⟩

/-- A full accumulator at the 39th bit meets `CountBounded`. -/
theorem witness_RecordedBitsAreNeverLost :
    (at1000 .readingBits 0x7FFFFFFFFF 39).Ready ∧ (at1000 .readingBits 0x7FFFFFFFFF 39).CountBounded ∧
    (at1000 .readingBits 0x7FFFFFFFFF 39).phase = .readingBits ∧
    (at1000 .readingBits 0x7FFFFFFFFF 39).BitLen 0x1023 false ∧ (at1000 .readingBits 0x7FFFFFFFFF 39).BitLen 0x103C true := by
  unfold State.CountBounded
  decide

theorem witness_FortiethBitEmits :
    (at1000 .readingBits 0x23000B8432 39).Ready ∧ (at1000 .readingBits 0x23000B8432 39).phase = .readingBits ∧
    (at1000 .readingBits 0x23000B8432 39).bitCount = 39 ∧
    (at1000 .readingBits 0x23000B8432 39).BitLen 0x1019 false ∧
    (at1000 .readingBits 0x23000B8432 39).BitLen 0x1046 true := by decide

/-- The first durations outside the gap band and outside both bit bands. -/
theorem witness_ReadingBitsAborts :
    ((at1000 .readingBits 5 3).Ready ∧ (at1000 .readingBits 5 3).phase = .readingBits) ∧
    (¬ (at1000 .readingBits 5 3).GapLen 0x1022 ∧ ¬ (at1000 .readingBits 5 3).GapLen 0x1042) ∧
    (¬ (at1000 .readingBits 5 3).BitLen 0x100E false ∧ ¬ (at1000 .readingBits 5 3).BitLen 0x100E true) ∧
    (¬ (at1000 .readingBits 5 3).BitLen 0x1024 false ∧ ¬ (at1000 .readingBits 5 3).BitLen 0x1024 true) ∧
    (¬ (at1000 .readingBits 5 3).BitLen 0x103B false ∧ ¬ (at1000 .readingBits 5 3).BitLen 0x103B true) ∧
    (¬ (at1000 .readingBits 5 3).BitLen 0x1051 false ∧ ¬ (at1000 .readingBits 5 3).BitLen 0x1051 true) :=
  ⟨by decide, by decide, by decide, by decide, by decide, by decide⟩

/-- Both polarities, in every phase. -/
theorem witness_EvLowByItsRule :
    0x000001050#34 &&& 0x300000000#34 = 0x000000000#34 ∧
    ∀ p ∈ [Phase.idle, .preambleStarted, .readingBits],
      (at1000 p 5 3).Ready ∧ (at1000 p 5 3).cfg.DefaultBands ∧ (at1000 p 5 3).cfg.startLevel = .high ∧
      (low1000 p 5 3).Ready ∧ (low1000 p 5 3).cfg.DefaultBands ∧ (low1000 p 5 3).cfg.startLevel = .low := by decide

theorem witness_EvHighByItsRule :
    0x100001050#34 &&& 0x300000000#34 = 0x100000000#34 ∧
    ∀ p ∈ [Phase.idle, .preambleStarted, .readingBits],
      (at1000 p 5 39).Ready ∧ (at1000 p 5 39).cfg.DefaultBands ∧ (at1000 p 5 39).cfg.startLevel = .high ∧
      (low1000 p 5 39).Ready ∧ (low1000 p 5 39).cfg.DefaultBands ∧ (low1000 p 5 39).cfg.startLevel = .low := by decide

theorem witness_EvWdogByItsRule :
    0x20000D350#34 &&& 0x300000000#34 = 0x200000000#34 ∧ (at1000 .readingBits 5 3).Ready := by decide

theorem witness_ReservedLevelIsRefused :
    ∃ (s : State) (p : PortInput) (rest : List PortInput), s.inputs = p :: rest ∧ p.rst = false ∧ p.evValid = true ∧
      p.evWord &&& 0x300000000#34 = 0x300000000#34 :=
  ⟨presenting ⟨false, true, 0x300001050#34⟩ State.reset, _, _, rfl, rfl, rfl, by decide⟩

/-- A state with the same registers that differs in everything else. -/
theorem witness_StepIsATotalFunction :
    (Instr.evLow 0x1046).wf = true ∧ (at1000 .readingBits 5 40).Ready ∧
    (at1000 .readingBits 5 40).SameRegisters
      { at1000 .readingBits 5 40 with outcomeOut := some .gap, inputs := [⟨true, true, 7⟩] } := by
  unfold State.SameRegisters
  decide

theorem witness_MalformedConfigurationIsRefused :
    ¬ { at1000 .idle 0 0 with cfg := { Config.default with zeroHi := 60 } }.cfg.WellFormed ∧
    (Instr.evHigh 0x1050).wf = true := by decide

theorem witness_CountAboveFortyIsRefused :
    (Instr.evHigh 0x1050).wf = true ∧ (at1000 .idle 0 41).cfg.WellFormed ∧ 40 < (at1000 .idle 0 41).bitCount.toNat ∧
    40 < (at1000 .idle 0 63).bitCount.toNat := by decide

/-- A step of each kind: nothing presented, a reset, an event, neither. -/
theorem witness_LastTimestampIsTheMostRecentEvent :
    (∃ t, step (at1000 .readingBits 5 3) = .next t) ∧
    ∀ p ∈ [PortInput.mk true true 7, ⟨false, true, 7⟩, ⟨false, false, 7⟩],
      ∃ t, step (presenting p (at1000 .readingBits 5 3)) = .next t :=
  ⟨⟨_, rfl⟩, by simp only [List.forall_mem_cons]; exact ⟨⟨_, rfl⟩, ⟨_, rfl⟩, ⟨_, rfl⟩, fun _ h => nomatch h⟩⟩

/-- A completed preamble, and a recorded bit. -/
theorem witness_AccumulatorEntersBitsAtBitZero :
    (∃ t, exec (.evLow 0x1050) (at1000 .preambleStarted 5 40) = .next t ∧ t.phase = .readingBits) ∧
    ∃ t, exec (.evLow 0x1046) (at1000 .readingBits 5 3) = .next t ∧ t.bitCount = 4 :=
  ⟨⟨_, rfl, by decide⟩, _, rfl, by decide⟩

theorem witness_OnlyTheFortiethBitEmits :
    ∃ t, step (presenting (PortInput.event 0x000001046#34) (at1000 .readingBits 0x23000B8432 39)) = .next t ∧
      t.frameOut = some ⟨0x46, 0x00, 0x17, 0x08, 0x65, true⟩ ∧ t.bitCount = 39 + 1 ∧ t.bitCount = 40 :=
  ⟨_, rfl, by decide⟩

/-- Every outcome code is produced. -/
theorem witness_OutcomeCodeNamesTheTransition :
    (leaves (exec (.evLow 0x1050) (at1000 .idle 5 3))).map (fun r => r.2.2.2.2) = some (some .ignored) ∧
    (leaves (exec (.evHigh 0x1050) (at1000 .idle 5 3))).map (fun r => r.2.2.2.2) = some (some .preStart) ∧
    (leaves (exec (.evLow 0x1050) (at1000 .preambleStarted 5 3))).map (fun r => r.2.2.2.2) = some (some .preDone) ∧
    (leaves (exec (.evHigh 0x1032) (at1000 .readingBits 5 3))).map (fun r => r.2.2.2.2) = some (some .gap) ∧
    (leaves (exec (.evLow 0x100F) (at1000 .readingBits 5 3))).map (fun r => r.2.2.2.2) = some (some .bit0) ∧
    (leaves (exec (.evLow 0x1050) (at1000 .readingBits 5 3))).map (fun r => r.2.2.2.2) = some (some .bit1) ∧
    (leaves (exec (.evLow 0x1050) (at1000 .readingBits 5 39))).map (fun r => r.2.2.2.2) = some (some .frame) ∧
    (leaves (exec (.evLow 0x1024) (at1000 .readingBits 5 3))).map (fun r => r.2.2.2.2) = some (some .abortProto) ∧
    (leaves (exec (.evWdog 0x1050) (at1000 .readingBits 5 3))).map (fun r => r.2.2.2.2) = some (some .abortWdog) := by
  decide

/-- An edge that is no admissible observation, in both phases, and an IDLE edge that starts no preamble. -/
theorem witness_ProtocolViolationIsALocalReset :
    (at1000 .readingBits 5 3).Ready ∧ (at1000 .readingBits 5 3).phase ≠ .idle ∧
    ¬ (at1000 .readingBits 5 3).Admits .low 0x1024 ∧ (at1000 .preambleStarted 5 3).Ready ∧
    ¬ (at1000 .preambleStarted 5 3).Admits .high 0x1050 ∧
    (∃ t, exec (PinLevel.edge .low 0x1024) (at1000 .readingBits 5 3) = .next t) ∧
    (∃ t, exec (.evWdog 0x1024) (at1000 .readingBits 5 3) = .next t) ∧
    ∃ t, exec (PinLevel.edge .low 0x1050) (at1000 .idle 5 3) = .next t ∧ t.outcomeOut ≠ some .preStart := by
  refine ⟨by decide, by decide, ?_, by decide, ?_, ⟨_, rfl⟩, ⟨_, rfl⟩, _, rfl, by decide⟩ <;>
    simp only [State.Admits, at1000, State.reset, State.resetWith, not_or, not_and, not_exists] <;> decide

theorem witness_WatchdogTimeoutIsALocalReset :
    (at1000 .readingBits 5 3).Ready ∧ (at1000 .readingBits 5 3).phase ≠ .idle ∧ (at1000 .idle 5 3).Ready ∧
    (at1000 .idle 5 3).phase = .idle ∧ ∃ t, exec (.evWdog 0xD350) (at1000 .readingBits 5 3) = .next t :=
  ⟨by decide, by decide, by decide, by decide, _, rfl⟩

/-- E31 and E30: a frame whose checksum is not the sum, and one whose checksum is. -/
theorem witness_ChecksumMismatchOnlyClearsValid :
    (∃ t f, exec (.evLow 0x1019) (at1000 .readingBits 0x23000B8432 39) = .next t ∧ t.frameOut = some f ∧
      ¬ f.SumMatches) ∧
    ∃ t f, exec (.evLow 0x1046) (at1000 .readingBits 0x23000B8432 39) = .next t ∧ t.frameOut = some f ∧ f.SumMatches :=
  ⟨⟨_, _, rfl, rfl, by decide⟩, _, _, rfl, rfl, by decide⟩

theorem witness_AbortSavesNothing :
    (∃ t, exec (.evLow 0x1024) (at1000 .readingBits 5 3) = .next t ∧ t.outcomeOut = some .abortProto) ∧
    ∃ t, exec (.evWdog 0x1024) (at1000 .preambleStarted 5 3) = .next t ∧ t.outcomeOut = some .abortWdog :=
  ⟨⟨_, rfl, by decide⟩, _, rfl, by decide⟩

/-- A step with the trace port and a step without. -/
theorem witness_TraceShowsValuesAfterTheStep :
    (∃ t, exec (.evLow 0x1046) (at1000 .readingBits 5 3) = .next t ∧ (at1000 .readingBits 5 3).cfg.traceEn = true) ∧
    ∃ s t, exec (.evLow 0x1046) s = .next t ∧ s.cfg.traceEn = false :=
  ⟨⟨_, rfl, rfl⟩, { at1000 .readingBits 5 3 with cfg := { Config.default with traceEn := false } }, _, rfl, rfl⟩

theorem witness_TraceHasNoEffect :
    ∃ t, exec (.evLow 0x1046) (at1000 .readingBits 0x23000B8432 39) = .next t := ⟨_, rfl⟩

theorem witness_BadChecksumStillEmits :
    (at1000 .readingBits 0x23000B8432 39).Ready ∧ (at1000 .readingBits 0x23000B8432 39).phase = .readingBits ∧
    (at1000 .readingBits 0x23000B8432 39).bitCount = 39 ∧ (at1000 .readingBits 0x23000B8432 39).BitLen 0x1019 false := by
  decide

theorem witness_PolaritiesMirrorEachOther : (at1000 .readingBits 0x23000B8432 39).Ready := by decide

/-- Two IDLE states with different leftovers. -/
theorem witness_LeftoverBitsReachNoFrame :
    (at1000 .idle 5 3).Ready ∧ (at1000 .idle 7 40).Ready ∧ (at1000 .idle 5 3).CountBounded ∧
    (at1000 .idle 5 3).SameWhereRead (at1000 .idle 7 40) := by
  unfold State.CountBounded State.SameWhereRead
  decide

/-- The state of a 39th bit meets the invariant and its step answers. -/
theorem witness_EveryStepKeepsTheInvariant :
    ∃ s t : State, s.Inv ∧ s.phase = .readingBits ∧ s.bitCount = 39 ∧ step s = .next t := by
  refine ⟨presenting (PortInput.event 0x000001046#34) (at1000 .readingBits 0x23000B8432 39), _, ⟨?_, ?_⟩, rfl, rfl, rfl⟩
  · unfold State.CountBounded
    decide
  · simp [State.PortsAgree, presenting, at1000, State.reset, State.resetWith]

/-- A state in READING_BITS is reached from reset by the two events of a preamble. -/
theorem reachable_reading : ∃ s, Reachable Config.default s ∧ s.phase = .readingBits :=
  ⟨_, .stepped _ _ (.presented _ [PortInput.event 0x0000000A0#34]
    (.stepped _ _ (.presented _ [PortInput.event 0x100000050#34] .reset) rfl)) rfl, rfl⟩

theorem witness_BitCountNeverExceedsForty : ∃ (c : Config) (s : State), Reachable c s ∧ s.phase = .readingBits :=
  ⟨_, reachable_reading⟩

theorem witness_ReadingBitsBoundsTheAccumulator : ∃ (c : Config) (s : State), Reachable c s ∧ s.phase = .readingBits :=
  ⟨_, reachable_reading⟩

theorem elapsed_add (t : Tick) {n : Nat} (h : n < 2 ^ 32) : elapsed t (t + BitVec.ofNat 32 n) = n := by
  have := t.isLt
  simp only [elapsed, BitVec.toNat_add, BitVec.toNat_ofNat]
  omega

/-- From any tick there is a stream that carries `n` bits 1, without gaps. -/
theorem carries_ones (n : Nat) : ∀ last : Tick, ∃ ws last',
    CarriesBits Config.default last ws (List.replicate n true) last' ∧ ws.length = n ∧
      ∀ w ∈ ws, ∃ u, w = encode (.evLow u) := by
  induction n with
  | zero => exact fun last => ⟨[], last, .done last, rfl, fun _ h => nomatch h⟩
  | succ n ih =>
    intro last
    obtain ⟨ws, last', h, hn, hw⟩ := ih (last + 70#32)
    refine ⟨_, last', .bit last (last + 70#32) last' ws true _ (by rw [elapsed_add last (by decide)]; decide) h,
      by simp [hn], fun w hm => ?_⟩
    rcases List.mem_cons.1 hm with rfl | hm
    · exact ⟨_, rfl⟩
    · exact hw w hm

/-- A stream that carries the bits still missing emits in its last step. -/
theorem carries_emits {c : Config} {last last' : Tick} {ws : List EventWord} {bits : List Bool}
    (h : CarriesBits c last ws bits last') : ∀ (k : Nat) (s : State), c.WellFormed → s.cfg = c → s.phase = .readingBits →
    s.lastTimestamp = last → bits ≠ [] → s.bitCount.toNat + bits.length = 40 →
    ∃ f, (k + ws.length - 1, f) ∈ (runFrom k s ws).frames := by
  induction h with
  | done _ => exact fun _ _ _ _ _ _ h => absurd rfl h
  | gap last ts last' ws b bs band rest ih =>
    intro k s hw hc hp hl hne hn
    subst hc hl
    have hr : (s.setInputs []).Ready := ⟨hw, by simp only [State.setInputs_bitCount]; omega⟩
    have hd := decode_encode_edge s.cfg.startLevel ts
    rw [runFrom_cons_event (lvl := s.cfg.startLevel.toLevel) (by exact hr) (by rw [hd, PinLevel.edge_level]), hd,
      PinLevel.edge_ts, transition_of_reading hr hp, if_pos ⟨by simp, band⟩]
    obtain ⟨f, hf⟩ := ih (k + 1) (State.afterPhase (s.setInputs []) s.cfg.startLevel.toLevel ts .readingBits .gap) hw rfl rfl
      rfl hne hn
    refine ⟨f, List.mem_append.2 (.inr ?_)⟩
    rwa [List.length_cons, show k + (ws.length + 1) - 1 = k + 1 + ws.length - 1 by omega]
  | bit last ts last' ws b bs band rest ih =>
    intro k s hw hc hp hl hne hn
    subst hc hl
    have hr : (s.setInputs []).Ready := ⟨hw, by simp only [State.setInputs_bitCount]; omega⟩
    have hd := decode_encode_edge s.cfg.bitLevel ts
    have hb : (s.setInputs []).BitLen ts b := band
    have ht : (s.setInputs []).transition s.cfg.bitLevel.toLevel ts =
        (s.setInputs []).afterRecord s.cfg.bitLevel.toLevel ts b := by
      rw [transition_of_reading hr hp, if_neg (by simp [s.cfg.bitLevel_ne_startLevel])]
      cases b with
      | false => rw [if_pos ⟨by simp, hb⟩]
      | true => rw [if_neg (fun h0 => Bool.noConfusion (bitLen_unique hr.1 h0.2 hb)), if_pos ⟨by simp, hb⟩]
    rw [runFrom_cons_event (lvl := s.cfg.bitLevel.toLevel) (by exact hr) (by rw [hd, PinLevel.edge_level]), hd,
      PinLevel.edge_ts, ht, State.afterRecord]
    have hx : (s.setInputs []).bitCount = s.bitCount := rfl
    rw [List.length_cons] at hn
    cases bs with
    | nil =>
      cases rest
      rw [if_pos (by rw [hx]; simpa using hn)]
      exact ⟨_, List.mem_append.2 (.inl (List.mem_singleton.2 rfl))⟩
    | cons b2 bs =>
      rw [List.length_cons] at hn
      rw [if_neg (by rw [hx]; omega)]
      obtain ⟨f, hf⟩ := ih (k + 1) (State.afterBit (s.setInputs []) s.cfg.bitLevel.toLevel ts b) hw rfl rfl rfl (by simp)
        (by
          show (BitVec.ofNat 6 (s.bitCount.toNat + 1)).toNat + _ = 40
          rw [BitVec.toNat_ofNat, List.length_cons]; omega)
      refine ⟨f, List.mem_append.2 (.inr ?_)⟩
      rwa [List.length_cons, show k + (ws.length + 1) - 1 = k + 1 + ws.length - 1 by omega]

/-- A stream with a gap and a 0 bit. -/
theorem carries_gap_zero :
    CarriesBits Config.default 0x1000 [0x100001032#34, 0x00000104B#34] [false] 0x104B :=
  .gap 0x1000 0x1032 0x104B [0x00000104B#34] false [] (by decide)
    (.bit 0x1032 0x104B 0x104B [] false [] (by decide) (.done 0x104B))

theorem witness_FrameIsMostSignificantFirst :
    ∃ (s : State) (ws : List EventWord) (bits : List Bool) (last : Tick),
      s.cfg.WellFormed ∧ s.phase = .readingBits ∧ s.bitCount = 0 ∧ s.accumulator = 0 ∧
      CarriesBits s.cfg s.lastTimestamp ws bits last ∧ bits.length = 40 := by
  obtain ⟨ws, last, h, -, -⟩ := carries_ones 40 0x1000
  exact ⟨at1000 .readingBits 0 0, ws, _, last, by decide, rfl, rfl, rfl, h, rfl⟩

theorem witness_FrameNotationRoundTrip :
    (at1000 .idle 5 3).Ready ∧ (at1000 .idle 5 3).cfg.DefaultBands ∧ (at1000 .idle 5 3).phase = .idle ∧
    (low1000 .idle 5 3).Ready ∧ (low1000 .idle 5 3).cfg.DefaultBands ∧ (low1000 .idle 5 3).phase = .idle := by decide

/-- A gap and its 0 bit, then the gap HIGH +50 alone, after which LOW +45 is no admissible observation (P2, step 31). -/
theorem witness_SpoiledFrameEmitsNothing :
    (at1000 .readingBits 5 0).cfg.WellFormed ∧ (at1000 .readingBits 5 0).phase = .readingBits ∧
    (at1000 .readingBits 5 0).bitCount = 0 ∧
    CarriesBits (at1000 .readingBits 5 0).cfg (at1000 .readingBits 5 0).lastTimestamp
      [0x100001032#34, 0x00000104B#34] [false] 0x104B ∧
    Gaps (at1000 .readingBits 5 0).cfg 0x104B [0x10000107D#34] 0x107D ∧
    ∃ u, (runFrom 1 (at1000 .readingBits 5 0) ([0x100001032#34, 0x00000104B#34] ++ [0x10000107D#34])).final = some u ∧
      u.lastTimestamp = 0x107D ∧ ¬ u.Admits .low 0x10AA := by
  refine ⟨by decide, rfl, rfl, carries_gap_zero, .gap 0x104B 0x107D 0x107D [] (by decide) (.done _), _, rfl, rfl, ?_⟩
  rintro (⟨h, -⟩ | ⟨-, b, h⟩)
  · exact absurd h (by decide)
  · cases b <;> exact absurd h (by decide)

/-- No bit and no gap before the spoiled edge, and 39 bits before it. -/
theorem witness_SpoiledFrameEmitsNothing_ends :
    CarriesBits (at1000 .readingBits 5 0).cfg (at1000 .readingBits 5 0).lastTimestamp [] [] 0x1000 ∧
    Gaps (at1000 .readingBits 5 0).cfg 0x1000 [] 0x1000 ∧ ¬ (at1000 .readingBits 5 0).Admits .low 0x1024 ∧
    ∃ ws bits last, CarriesBits (at1000 .readingBits 5 0).cfg (at1000 .readingBits 5 0).lastTimestamp ws bits last ∧
      bits.length = 39 := by
  obtain ⟨ws, last, h, -, -⟩ := carries_ones 39 0x1000
  refine ⟨.done _, .done _, ?_, ws, _, last, h, rfl⟩
  simp only [State.Admits, at1000, State.reset, State.resetWith, not_or, not_and, not_exists]
  decide

/-- `n` gaps of 50 ticks, each followed by a bit event of 25. -/
def zeroBits (t : Tick) : Nat → List EventWord
  | 0 => []
  | n + 1 => encode (.evHigh (t + 50#32)) :: encode (.evLow (t + 50#32 + 25#32)) :: zeroBits (t + 50#32 + 25#32) n

theorem zeroBits_alternate (n : Nat) : ∀ t, Alternates .high (zeroBits t n) := by
  induction n with
  | zero => exact fun _ => trivial
  | succ n ih => exact fun t => ⟨⟨_, rfl⟩, ⟨_, rfl⟩, ih _⟩

theorem zeroBits_length (n : Nat) : ∀ t, (zeroBits t n).length = 2 * n := by
  induction n with
  | zero => exact fun _ => rfl
  | succ n ih => exact fun t => by simp [zeroBits, ih]; omega

theorem zeroBits_carry (n : Nat) : ∀ t, ∃ t', CarriesBits Config.default t (zeroBits t n) (List.replicate n false) t' := by
  induction n with
  | zero => exact fun t => ⟨t, .done t⟩
  | succ n ih =>
    intro t
    obtain ⟨t', h⟩ := ih (t + 50#32 + 25#32)
    refine ⟨t', .gap _ _ _ _ false _ ?_ (.bit _ _ _ _ false _ ?_ h)⟩
    · rw [elapsed_add t (by decide)]; decide
    · rw [elapsed_add _ (by decide)]; decide

/-- After a start-level edge and a bit-level edge that are a preamble, a stream of 40 bits emits in its last step. -/
theorem preamble_then_bits {ws : List EventWord} {bits : List Bool} {last : Tick} (t1 t2 : Tick)
    (h1 : (at1000 .idle 5 3).PreambleLen t1) (h2 : 70 < elapsed t1 t2 ∧ elapsed t2 t2 = 0 ∧ elapsed t1 t2 < 95)
    (h : CarriesBits Config.default t2 ws bits last) (h40 : bits.length = 40) :
    ∃ f, (1 + (ws.length + 1), f) ∈
      (runFrom 1 (at1000 .idle 5 3) (encode (.evHigh t1) :: encode (.evLow t2) :: ws)).frames := by
  have d1 : decode (encode (.evHigh t1)) = .evHigh t1 := decode_encode_edge .high t1
  have d2 : decode (encode (.evLow t2)) = .evLow t2 := decode_encode_edge .low t2
  have hr : (at1000 .idle 5 3).Ready := by decide
  rw [runFrom_cons_event (lvl := .high) hr (by rw [d1]; rfl), d1,
    transition_of_idle (s := (at1000 .idle 5 3).setInputs []) rfl, if_pos ⟨rfl, h1⟩]
  rw [runFrom_cons_event (lvl := .low) (by exact hr) (by rw [d2]; rfl), d2, transition_of_preamble rfl,
    if_pos ⟨rfl, h2.1, h2.2.2⟩]
  obtain ⟨f, hf⟩ := carries_emits h (1 + 1 + 1)
    (State.after (State.setInputs (State.afterPhase ((at1000 .idle 5 3).setInputs []) .high t1 .preambleStarted .preStart) [])
      .low t2 .readingBits 0 0 .preDone none) (by decide) rfl rfl rfl (by rintro rfl; cases h40) (by rw [h40]; rfl)
  exact ⟨f, by
    simp only [List.mem_append]
    refine .inr (.inr ?_)
    rw [show 1 + (ws.length + 1) = 1 + 1 + 1 + ws.length - 1 by omega]
    exact hf⟩

/-- Two alternating edges for each of a preamble and 40 bits, from IDLE, their last step the frame's. -/
theorem witness_FrameDurationBounds_slow :
    (at1000 .idle 5 3).Ready ∧ (at1000 .idle 5 3).cfg.DefaultBands ∧ (at1000 .idle 5 3).phase = .idle ∧
    ∃ (ws : List EventWord) (f : Frame), ws.length = 82 ∧ Alternates (at1000 .idle 5 3).cfg.startLevel ws ∧
      (1 + 81, f) ∈ (runFrom 1 (at1000 .idle 5 3) ws).frames := by
  obtain ⟨t', h⟩ := zeroBits_carry 40 0x10A0
  obtain ⟨f, hf⟩ := preamble_then_bits 0x1050 0x10A0 (by decide) (by decide) h (by simp)
  have hl := zeroBits_length 40 0x10A0
  rw [hl] at hf
  exact ⟨by decide, by decide, rfl, encode (.evHigh 0x1050) :: encode (.evLow 0x10A0) :: zeroBits 0x10A0 40, f,
    by rw [List.length_cons, List.length_cons, hl], ⟨⟨_, rfl⟩, ⟨_, rfl⟩, zeroBits_alternate 40 _⟩, hf⟩

/-- A start-level edge and 41 bit-level edges, the last step the frame's. -/
theorem witness_FrameDurationBounds_fast :
    ∃ (ts : Tick) (ws : List EventWord) (f : Frame), ws.length = 41 ∧
      (∀ w ∈ ws, ∃ u, w = encode ((at1000 .idle 5 3).cfg.bitLevel.edge u)) ∧
      (1 + 41, f) ∈ (runFrom 1 (at1000 .idle 5 3) (encode ((at1000 .idle 5 3).cfg.startLevel.edge ts) :: ws)).frames := by
  obtain ⟨ws, t', h, hl, hw⟩ := carries_ones 40 0x10A0
  obtain ⟨f, hf⟩ := preamble_then_bits 0x1050 0x10A0 (by decide) (by decide) h (by simp)
  rw [hl] at hf
  refine ⟨0x1050, encode (.evLow 0x10A0) :: ws, f, by rw [List.length_cons, hl], fun w hm => ?_, hf⟩
  rcases List.mem_cons.1 hm with rfl | hm
  · exact ⟨_, rfl⟩
  · exact hw w hm

theorem witness_LegalStreamsRunToTheirEnd :
    Config.default.WellFormed ∧ LegalStream [0x100000050#34, 0x0000000A0#34, 0x20000D350#34] := by
  refine ⟨by decide, fun w h => ?_⟩
  rcases List.mem_cons.1 h with rfl | h
  · decide
  rcases List.mem_cons.1 h with rfl | h
  · decide
  obtain rfl := List.mem_singleton.1 h
  decide

/-- Both ends of the band of the first event, and a first event outside it. -/
theorem witness_FirstEventAfterReset :
    Config.default.WellFormed ∧ Config.default.DefaultBands ∧ Config.default.lastTsReset = 0 ∧
    ((Config.default.startLevel.edge 71).wf = true ∧ 71 ≤ (71 : Tick).toNat ∧ (94 : Tick).toNat ≤ 94) ∧
    ¬ ∃ ts, Instr.evHigh 0x1000 = Config.default.startLevel.edge ts ∧ 71 ≤ ts.toNat ∧ ts.toNat ≤ 94 := by
  refine ⟨by decide, by decide, by decide, by decide, ?_⟩
  rintro ⟨ts, h, -, hi⟩
  injection h with h
  subst h
  revert hi
  decide

theorem witness_DuplicatedEdgeLiesInNoBand :
    (at1000 .readingBits 5 3).CountBounded ∧ (at1000 .readingBits 5 3).cfg.DefaultBands ∧
    (∃ t, exec (PinLevel.edge .low 0x1046) (at1000 .readingBits 5 3) = .next t ∧ t.phase = .readingBits) ∧
    ∃ t, exec (PinLevel.edge .low 0x1046) (at1000 .idle 5 3) = .next t ∧ t.phase = .idle :=
  ⟨by unfold State.CountBounded; decide, by decide, ⟨_, rfl, by decide⟩, _, rfl, by decide⟩

/-- An abort by an edge and one by a timeout, each followed by a preamble of 80 and 80 ticks. -/
theorem witness_PreambleIsRecognisedAfterAnAbort :
    (at1000 .readingBits 5 3).CountBounded ∧
    (∃ u, exec (.evLow 0x1024) (at1000 .readingBits 5 3) = .next u ∧ u.outcomeOut = some .abortProto ∧
      u.PreambleLen 0x1074 ∧
      ∃ v, exec (u.cfg.startLevel.edge 0x1074) u = .next v ∧ v.PreambleLen 0x10C4) ∧
    ∃ u, exec (.evWdog 0x1024) (at1000 .readingBits 5 3) = .next u ∧ u.outcomeOut = some .abortWdog ∧
      u.PreambleLen 0x1074 :=
  ⟨by unfold State.CountBounded; decide, ⟨_, rfl, by decide, by decide, _, rfl, by decide⟩, _, rfl, by decide, by decide⟩

/-- The shortest trigger, from IDLE and from READING_BITS with a first edge that records a bit, the 40th among them. -/
theorem witness_TriggerEdgesLeaveIdle :
    (at1000 .idle 5 3).Ready ∧ (at1000 .idle 5 3).CountBounded ∧ (at1000 .idle 5 3).cfg.DefaultBands ∧
    (at1000 .idle 5 3).cfg.startLevel = .high ∧ 19000 ≤ elapsed 0x1046 (0x1046 + 19000) ∧
    (at1000 .idle 5 3).phase = .idle ∧ (at1000 .readingBits 5 39).Ready ∧ (at1000 .readingBits 5 39).CountBounded ∧
    (at1000 .readingBits 5 39).BitLen 0x1046 true ∧ (at1000 .readingBits 5 39).BitLen 0x100F false ∧
    (at1000 .readingBits 5 3).Ready ∧ (at1000 .readingBits 5 3).CountBounded ∧
    ∃ u, exec (.evLow 0x1046) (at1000 .readingBits 5 3) = .next u ∧ u.phase ≠ .idle := by
  unfold State.CountBounded
  exact ⟨by decide, by decide, by decide, rfl, by decide, rfl, by decide, by decide, by decide, by decide, by decide,
    by decide, _, rfl, by decide⟩

theorem witness_TimeoutTickIsTheNextBase :
    (at1000 .readingBits 5 3).Ready ∧ (at1000 .readingBits 5 3).cfg.preLoX < elapsed 0xD350 0xD397 ∧
    elapsed 0xD350 0xD397 < (at1000 .readingBits 5 3).cfg.preHiX := by decide

end Sys2Proof.Tests
end

/-! # Totality and determinism of a step (00_scope.md R15) -/

namespace Sys2Proof.Machine

variable {s s' : State} {lvl : Level} {ts : Tick}

/-! ## No operation of R68 reads the stream to come

Each branches on registers and the configuration alone, so replacing the stream passes through the branches. -/

theorem recordBit_setInputs (s : State) (ps : List PortInput) (b : Bool) :
    (s.setInputs ps).recordBit b = (s.recordBit b).setInputs ps := by
  simp only [State.recordBit, apply_ite (State.setInputs · ps)]
  rfl

theorem stepIdle_setInputs (s : State) (ps : List PortInput) (lvl : Level) (len : Tick) :
    (s.setInputs ps).stepIdle lvl len = (s.stepIdle lvl len).setInputs ps := by
  simp only [State.stepIdle, apply_ite (State.setInputs · ps)]
  rfl

theorem stepPreamble_setInputs (s : State) (ps : List PortInput) (lvl : Level) (len : Tick) :
    (s.setInputs ps).stepPreamble lvl len = (s.stepPreamble lvl len).setInputs ps := by
  simp only [State.stepPreamble, apply_ite (State.setInputs · ps)]
  rfl

theorem stepReading_setInputs (s : State) (ps : List PortInput) (lvl : Level) (len : Tick) :
    (s.setInputs ps).stepReading lvl len = (s.stepReading lvl len).setInputs ps := by
  simp only [State.stepReading, apply_ite (State.setInputs · ps), recordBit_setInputs]
  rfl

theorem stepPhase_setInputs (s : State) (ps : List PortInput) (lvl : Level) (len : Tick) :
    (s.setInputs ps).stepPhase lvl len = (s.stepPhase lvl len).setInputs ps := by
  unfold State.stepPhase
  rw [State.setInputs_phase]
  cases s.phase with
  | idle => exact stepIdle_setInputs s ps lvl len
  | preambleStarted => exact stepPreamble_setInputs s ps lvl len
  | readingBits => exact stepReading_setInputs s ps lvl len

/-! ## A step depends on the registers and the configuration alone -/

/-- What the last step left on the ports is forgotten, so registers and configuration fix all but the stream. -/
theorem clearOutputs_of_sameRegisters (h : s.SameRegisters s') (hc : s'.cfg = s.cfg) :
    s'.clearOutputs = s.clearOutputs.setInputs s'.inputs := by
  obtain ⟨hp, ht, ha, hb⟩ := h
  simp only [State.clearOutputs, State.setInputs, hp, ht, ha, hb, hc]

theorem transition_of_sameRegisters (h : s.SameRegisters s') (hc : s'.cfg = s.cfg) :
    s'.transition lvl ts = (s.transition lvl ts).setInputs s'.inputs := by
  have hd : s'.duration ts = s.duration ts := by
    obtain ⟨-, ht, -, -⟩ := h
    rw [State.duration, ht, State.duration]
  have hpro : s'.clearOutputs.setLastTimestamp ts = (s.clearOutputs.setLastTimestamp ts).setInputs s'.inputs := by
    rw [clearOutputs_of_sameRegisters h hc]
    rfl
  simp only [State.transition, hd, hpro, stepPhase_setInputs]
  rfl

theorem ready_of_sameRegisters (h : s.SameRegisters s') (hc : s'.cfg = s.cfg) (hr : s.Ready) : s'.Ready := by
  obtain ⟨-, -, -, hb⟩ := h
  rwa [State.Ready, hc, hb]

/-! ## What every legal event puts on the ports -/

theorem transition_outcomeOut (hr : s.Ready) : ∃ oc, (s.transition lvl ts).outcomeOut = some oc := by
  obtain ⟨_, _, _, oc, _, e⟩ := transition_after hr lvl ts
  exact ⟨oc, by rw [e, State.after_outcomeOut]⟩

theorem after_traceValid (s : State) (lvl : Level) (ts : Tick) (p : Phase) (a : Accumulator) (n : BitCount)
    (oc : OutcomeCode) (f : Option Frame) : (s.after lvl ts p a n oc f).traceValid = s.cfg.traceEn := by
  unfold State.traceValid State.after
  cases s.cfg.traceEn <;> rfl

theorem transition_traceValid (hr : s.Ready) : (s.transition lvl ts).traceValid = s.cfg.traceEn := by
  obtain ⟨_, _, _, _, _, e⟩ := transition_after hr lvl ts
  rw [e, after_traceValid]

/-- Settles O23: a legal event in a Ready state is one transition, an `after` state, and a state that differs only in its
ports and its stream makes the same transition. -/
theorem stepIsATotalFunction : Obligations.StepIsATotalFunction := by
  unfold Obligations.StepIsATotalFunction
  intro i s hwf hr
  obtain ⟨lvl, hl⟩ := Instr.level_of_wf hwf
  refine ⟨s.transition lvl i.ts, exec_next.2 ⟨hr, lvl, hl, rfl⟩, transition_lastTimestamp hr, transition_cfg hr,
    transition_inputs hr, transition_outcomeOut hr, by rw [transition_traceValid hr], fun s' h hc => ?_⟩
  refine ⟨s'.transition lvl i.ts, exec_next.2 ⟨ready_of_sameRegisters h hc hr, lvl, hl, rfl⟩, ?_⟩
  rw [transition_of_sameRegisters h hc]
  exact ⟨⟨rfl, rfl, rfl, rfl⟩, rfl, rfl, rfl⟩

end Sys2Proof.Machine

/-! # The state's registers along every step (10_state.md) -/

namespace Sys2Proof

/-! ## The event that a word carries -/

@[simp] theorem decode_ts (w : EventWord) : (decode w).ts = tsField w := by
  rcases lvl_cases (lvlField w) with h | h | h | h
  · rw [decode_of_low h, Instr.ts]
  · rw [decode_of_high h, Instr.ts]
  · rw [decode_of_wdog h, Instr.ts]
  · rw [decode_of_reserved h, Instr.ts]

/-- Only the edge event of a pin level carries that level (R52). -/
theorem Instr.eq_edge_of_level {i : Instr} {p : PinLevel} (h : i.level = some p.toLevel) : i = p.edge i.ts := by
  cases i with
  | evLow ts => cases p with
    | low => rfl
    | high => cases h
  | evHigh ts => cases p with
    | low => cases h
    | high => rfl
  | evWdog ts => cases p <;> cases h
  | reservedLvl3 ts => cases h

theorem Config.isBit_iff {c : Config} {lvl : Level} : c.isBit lvl = true ↔ lvl = c.bitLevel.toLevel := by
  rw [Config.isBit, beq_iff_eq]

namespace Machine

variable {s t : State} {lvl : Level} {ts : Tick}

/-! ## The counter and the accumulator stay bounded (R31, R32) -/

/-- Outside READING_BITS only R31 bounds anything. -/
theorem countBounded_of_not_reading (hp : s.phase ≠ .readingBits) (hn : s.bitCount.toNat ≤ 40) : s.CountBounded :=
  ⟨hn, fun h => absurd h hp⟩

theorem resetWith_countBounded (c : Config) : (State.resetWith c).CountBounded :=
  countBounded_of_not_reading Phase.noConfusion (Nat.zero_le 40)

/-- A bit that is not the 40th keeps R32: the counter stays below 40, and an accumulator below `2^n` becomes one below
`2^(n+1)`. -/
theorem afterBit_countBounded (h : s.CountBounded) (hp : s.phase = .readingBits) (h40 : s.bitCount.toNat + 1 ≠ 40)
    (b : Bool) : (s.afterBit lvl ts b).CountBounded := by
  obtain ⟨hn, ha⟩ := h.2 hp
  have hcount : (BitVec.ofNat 6 (s.bitCount.toNat + 1)).toNat = s.bitCount.toNat + 1 := by
    rw [BitVec.toNat_ofNat]
    omega
  have hacc : (s.entered b).toNat < 2 ^ (s.bitCount.toNat + 1) := by
    have hb := b.toNat_lt
    have hmod := Nat.mod_le (2 * s.accumulator.toNat + b.toNat) (2 ^ 40)
    rw [State.entered, BitVec.toNat_ofNat, Nat.pow_succ]
    omega
  simp only [State.CountBounded, State.afterBit, State.after_bitCount, State.after_accumulator, hcount]
  exact ⟨by omega, fun _ => ⟨by omega, hacc⟩⟩

theorem transition_countBounded (hr : s.Ready) (h : s.CountBounded) : (s.transition lvl ts).CountBounded := by
  rcases transition_cases hr lvl ts with ⟨-, -, -, e⟩ | ⟨-, -, e⟩ | ⟨-, -, -, e⟩ | ⟨-, -, e⟩ | ⟨hp, -, -, e⟩ |
    ⟨hp, h40, b, -, -, e⟩ | ⟨-, -, b, -, -, e⟩ | ⟨-, -, -, e⟩ <;> rw [e]
  · exact countBounded_of_not_reading Phase.noConfusion h.1
  · exact countBounded_of_not_reading Phase.noConfusion h.1
  · exact ⟨Nat.zero_le 40, fun _ => ⟨Nat.zero_le 39, Nat.one_pos⟩⟩
  · exact countBounded_of_not_reading Phase.noConfusion h.1
  · exact ⟨h.1, fun _ => h.2 hp⟩
  · exact afterBit_countBounded h hp h40 b
  · exact countBounded_of_not_reading Phase.noConfusion le_rfl
  · exact countBounded_of_not_reading Phase.noConfusion h.1

/-- `CountBounded` speaks of registers alone, so neither the stream nor the ports matter to it. -/
theorem step_countBounded (h : s.CountBounded) (hst : step s = .next t) : t.CountBounded := by
  obtain ⟨-, ⟨-, rfl⟩ | ⟨p, rest, -, ⟨-, rfl⟩ | ⟨-, -, he⟩ | ⟨-, -, rfl⟩⟩⟩ := step_next_cases hst
  · exact h
  · exact resetWith_countBounded s.cfg
  · obtain ⟨hr, lvl, -, rfl⟩ := exec_next.1 he
    exact transition_countBounded hr h
  · exact h

theorem reachable_countBounded {c : Config} (h : Reachable c s) : s.CountBounded := by
  induction h with
  | reset => exact resetWith_countBounded c
  | presented s ps _ ih => exact ih
  | stepped s t _ hst ih => exact step_countBounded ih hst

/-- Settles O46: the first half of `CountBounded`, which reset meets and every step keeps. -/
theorem bitCountNeverExceedsForty : Obligations.BitCountNeverExceedsForty :=
  fun _ _ h => (reachable_countBounded h).1

/-! ## `last_timestamp` (R22) -/

/-- Settles O26: of what a step can do, only an event and `rst` write `last_timestamp`. -/
theorem lastTimestampIsTheMostRecentEvent : Obligations.LastTimestampIsTheMostRecentEvent := by
  refine ⟨State.resetWith_lastTimestamp, fun s t hst => ?_⟩
  obtain ⟨-, ⟨hi, rfl⟩ | ⟨p, rest, hi, hp⟩⟩ := step_next_cases hst
  · exact ⟨fun _ => rfl, fun _ _ h => nomatch hi.symm.trans h⟩
  refine ⟨fun h => (nomatch hi.symm.trans h), fun p' rest' h => ?_⟩
  obtain ⟨rfl, rfl⟩ := List.cons.inj (hi.symm.trans h)
  obtain ⟨hrst, rfl⟩ | ⟨hrst, hv, he⟩ | ⟨hrst, hv, rfl⟩ := hp
  · simp [hrst]
  · obtain ⟨hr, lvl, -, rfl⟩ := exec_next.1 he
    simp [hrst, hv, transition_lastTimestamp hr, tsField_eq_ofNat]
  · simp [hrst, hv]

/-! ## `accumulator` (R23) -/

theorem ofNat_bitCount_succ (s : State) : BitVec.ofNat 6 (s.bitCount.toNat + 1) = s.bitCount + 1 := by
  rw [BitVec.ofNat_add, BitVec.ofNat_toNat, BitVec.setWidth_eq]
  rfl

theorem entered_eq_shift_or (s : State) (b : Bool) :
    s.entered b = (s.accumulator <<< 1) ||| BitVec.ofNat 40 b.toNat := by
  rw [← shiftIn_eq_entered, shiftIn_eq]

/-- Settles O27: a completed preamble clears the accumulator, a recorded bit shifts into it, and every other case of the
transition keeps it. -/
theorem accumulatorEntersBitsAtBitZero : Obligations.AccumulatorEntersBitsAtBitZero := by
  intro i s t he
  obtain ⟨hr, lvl, -, rfl⟩ := exec_next.1 he
  rcases transition_cases hr lvl i.ts with ⟨hp, -, -, e⟩ | ⟨hp, -, e⟩ | ⟨hp, -, -, e⟩ | ⟨hp, -, e⟩ | ⟨hp, -, -, e⟩ |
    ⟨hp, -, b, -, -, e⟩ | ⟨hp, h40, b, -, -, e⟩ | ⟨hp, -, -, e⟩ <;> rw [e, hp]
  · exact ⟨nofun, .inl ⟨rfl, rfl⟩⟩
  · exact ⟨nofun, .inl ⟨rfl, rfl⟩⟩
  · exact ⟨fun _ _ => rfl, .inr (.inl ⟨rfl, rfl, rfl, rfl⟩)⟩
  · exact ⟨nofun, .inl ⟨rfl, rfl⟩⟩
  · exact ⟨nofun, .inl ⟨rfl, rfl⟩⟩
  · exact ⟨nofun, .inr (.inr ⟨rfl, ofNat_bitCount_succ s, b, entered_eq_shift_or s b⟩)⟩
  · have hcount : (40 : BitCount) = s.bitCount + 1 := by rw [← ofNat_bitCount_succ, h40]; rfl
    exact ⟨nofun, .inr (.inr ⟨rfl, hcount, b, entered_eq_shift_or s b⟩)⟩
  · exact ⟨nofun, .inl ⟨rfl, rfl⟩⟩

/-! ## The emission (R33) -/

/-- A transition with a frame on the port is the recording of the 40th bit. -/
theorem transition_emits {f : Frame} (hr : s.Ready) (hf : (s.transition lvl ts).frameOut = some f) :
    s.phase = .readingBits ∧ s.bitCount.toNat = 39 ∧
      ∃ b, s.cfg.isBit lvl = true ∧ s.BitLen ts b ∧ s.transition lvl ts = s.afterFrame lvl ts b := by
  rcases transition_cases hr lvl ts with ⟨-, -, -, e⟩ | ⟨-, -, e⟩ | ⟨-, -, -, e⟩ | ⟨-, -, e⟩ | ⟨-, -, -, e⟩ |
    ⟨-, -, b, -, -, e⟩ | ⟨hp, h40, b, hb, hlen, e⟩ | ⟨-, -, -, e⟩ <;> rw [e] at hf <;> cases hf
  exact ⟨hp, by omega, b, hb, hlen, e⟩

/-- A transition that brings the counter from 39 to 40 emits. -/
theorem transition_emits_of_bitCount (hr : s.Ready) (hn : s.bitCount = 39)
    (h40 : (s.transition lvl ts).bitCount = 40) : ∃ f, (s.transition lvl ts).frameOut = some f := by
  have hkept : s.bitCount ≠ 40 := by rw [hn]; decide
  rcases transition_cases hr lvl ts with ⟨-, -, -, e⟩ | ⟨-, -, e⟩ | ⟨-, -, -, e⟩ | ⟨-, -, e⟩ | ⟨-, -, -, e⟩ |
    ⟨-, hne, b, -, -, e⟩ | ⟨-, -, b, -, -, e⟩ | ⟨-, -, -, e⟩ <;> rw [e] at h40 ⊢
  · exact absurd h40 hkept
  · exact absurd h40 hkept
  · cases h40
  · exact absurd h40 hkept
  · exact absurd h40 hkept
  · exact absurd (by rw [hn]; rfl) hne
  · exact ⟨_, rfl⟩
  · exact absurd h40 hkept

/-- A step is an event's transition, or it puts no frame on the port and keeps or clears the counter. -/
theorem step_event_or_quiet (h : step s = .next t) :
    (∃ p rest lvl, s.inputs = p :: rest ∧ p.rst = false ∧ p.evValid = true ∧ (decode p.evWord).level = some lvl ∧
      (s.setInputs rest).Ready ∧ t = (s.setInputs rest).transition lvl (decode p.evWord).ts) ∨
    (t.frameOut = none ∧ (t.bitCount = s.bitCount ∨ t.bitCount = 0)) := by
  obtain ⟨-, ⟨-, rfl⟩ | ⟨p, rest, hi, ⟨-, rfl⟩ | ⟨hrst, hv, he⟩ | ⟨-, -, rfl⟩⟩⟩ := step_next_cases h
  · exact .inr ⟨rfl, .inl rfl⟩
  · exact .inr ⟨rfl, .inr rfl⟩
  · obtain ⟨hr, lvl, hl, e⟩ := exec_next.1 he
    exact .inl ⟨p, rest, lvl, hi, hrst, hv, hl, hr, e⟩
  · exact .inr ⟨rfl, .inl rfl⟩

/-- Settles O28: an event emits exactly when it records the 40th bit, and no other kind of step emits or counts. -/
theorem onlyTheFortiethBitEmits : Obligations.OnlyTheFortiethBitEmits := by
  intro s t hst
  have h39 : t.bitCount = s.bitCount + 1 → t.bitCount = 40 → s.bitCount = 39 := fun h h' => by bv_omega
  obtain ⟨p, rest, lvl, hi, hrst, hv, hl, hr, rfl⟩ | ⟨hf, hn⟩ := step_event_or_quiet hst
  · refine ⟨fun f hf => ?_, fun _ hinc h40 => transition_emits_of_bitCount hr (h39 hinc h40) h40⟩
    obtain ⟨hp, hn, b, hb, hlen, e⟩ := transition_emits hr hf
    rw [e] at hf ⊢
    rw [Config.isBit_iff.1 hb] at hl
    exact ⟨hp, rfl, rfl, hn, (Option.some.inj hf).symm, p, rest, _, b, hi, hrst, hv, Instr.eq_edge_of_level hl, hlen⟩
  · refine ⟨fun f h => (nomatch hf.symm.trans h), fun _ hinc h40 => ?_⟩
    rw [h39 hinc h40, h40] at hn
    exact absurd hn (by decide)

end Machine

end Sys2Proof

/-! # The frame is big-endian, and a repeated edge (20_memory.md) -/

namespace Sys2Proof.Machine

variable {s t : State} {lvl : Level} {ts : Tick}

/-! ## A duration that lies in no band -/

/-- Such an event is ignored in IDLE and aborts everywhere else (R72, R75, R82). -/
theorem transition_of_no_band (hr : s.Ready) (hpre : ¬ s.PreambleLen ts) (hgap : ¬ s.GapLen ts)
    (hbit : ∀ b, ¬ s.BitLen ts b) :
    s.transition lvl ts = s.afterPhase lvl ts .idle (if s.phase = .idle then .ignored else abortCode lvl) := by
  cases hp : s.phase with
  | idle => rw [transition_of_idle hp, if_neg fun h => hpre h.2, if_pos rfl]
  | preambleStarted => rw [transition_of_preamble hp, if_neg fun h => hpre h.2, if_neg Phase.noConfusion]
  | readingBits =>
    rw [transition_of_reading hr hp, if_neg fun h => hgap h.2, if_neg fun h => hbit false h.2,
      if_neg fun h => hbit true h.2, if_neg Phase.noConfusion]

theorem abortCode_toLevel (p : PinLevel) : abortCode p.toLevel = .abortProto := by cases p <;> rfl

/-- No band of R8's table holds 0. -/
theorem len_zero_lies_in_no_band (hb : s.cfg.DefaultBands) (h : s.len ts = 0) :
    ¬ s.PreambleLen ts ∧ ¬ s.GapLen ts ∧ ∀ b, ¬ s.BitLen ts b := by
  obtain ⟨hpre, -, hgap, -, hzero, -, hone, -⟩ := hb
  refine ⟨by omega, by omega, fun b => ?_⟩
  cases b <;> simp only [State.BitLen, if_true, if_false, Bool.false_eq_true] <;> omega

/-- Settles O55: the first copy leaves its own tick in `last_timestamp`, so the second copy's duration is 0. -/
theorem duplicatedEdgeLiesInNoBand : Obligations.DuplicatedEdgeLiesInNoBand := by
  intro p ts s t hcount hbands he
  rw [exec_edge, processEvent_next] at he
  obtain ⟨hr, rfl⟩ := he
  generalize ht : s.transition p.toLevel ts = t
  have hcfg : t.cfg = s.cfg := ht ▸ transition_cfg hr
  have hlen : t.len ts = 0 := by rw [State.len, ← ht, transition_lastTimestamp hr, elapsed_self]
  have hbounded : t.CountBounded := ht ▸ transition_countBounded hr hcount
  have hready : t.Ready := ⟨hcfg ▸ hr.1, hbounded.1⟩
  obtain ⟨hpre, hgap, hbit⟩ := len_zero_lies_in_no_band (hcfg ▸ hbands) hlen
  refine ⟨hlen, ?_⟩
  rw [exec_edge, processEvent_of_ready hready, transition_of_no_band hready hpre hgap hbit, abortCode_toLevel]

/-! ## Bits entered one after another -/

theorem shiftIn_getLsbD_zero (acc : Accumulator) (b : Bool) : (shiftIn acc b).getLsbD 0 = b := by
  cases b <;> simp [shiftIn]

theorem shiftIn_getLsbD_succ (acc : Accumulator) (b : Bool) {i : Nat} (hi : i + 1 < 40) :
    (shiftIn acc b).getLsbD (i + 1) = acc.getLsbD i := by
  cases b <;> simp [shiftIn, hi, BitVec.getLsbD_eq_getElem (Nat.lt_of_succ_lt hi)]

/-- The last bit entered stands at bit 0, the one before it at bit 1, and so on. -/
theorem foldl_shiftIn_getLsbD (bits : List Bool) :
    ∀ i < 40, (bits.foldl shiftIn 0).getLsbD i = bits.reverse.getD i false := by
  induction bits using List.reverseRecOn with
  | nil => exact fun i _ => by simp
  | append_singleton bits b ih =>
    intro i hi
    rw [List.foldl_concat, List.reverse_concat]
    cases i with
    | zero => rw [shiftIn_getLsbD_zero, List.getD_cons_zero]
    | succ i => rw [shiftIn_getLsbD_succ _ _ hi, ih i (by omega), List.getD_cons_succ]

/-- Of 40 bits entered, the first stands at bit 39. -/
theorem foldl_shiftIn_getMsbD {bits : List Bool} (h : bits.length = 40) {i : Nat} (hi : i < 40) :
    (bits.foldl shiftIn 0).getMsbD i = bits.getD i false := by
  rw [BitVec.getMsbD_eq_getLsbD, foldl_shiftIn_getLsbD bits _ (by omega), List.getD_reverse _ (by omega)]
  simp only [h, hi, decide_true, Bool.true_and]
  congr 1
  omega

/-- A byte of the accumulator keeps the order of its bits. -/
theorem extractByte_getMsbD (acc : Accumulator) {lo i : Nat} (hlo : lo ≤ 32) (hi : i < 8) :
    (acc.extractLsb' lo 8).getMsbD i = acc.getMsbD (32 - lo + i) := by
  rw [BitVec.getMsbD_eq_getLsbD, BitVec.getMsbD_eq_getLsbD, BitVec.getLsbD_extractLsb']
  simp only [hi, show 8 - 1 - i < 8 by omega, show 32 - lo + i < 40 by omega, decide_true, Bool.true_and]
  congr 1
  omega

/-- The five bytes of `Interp` are the accumulator's bits in order (R96). -/
theorem interp_getMsbD (acc : Accumulator) {i : Nat} (hi : i < 8) :
    (interp acc).humidityHigh.getMsbD i = acc.getMsbD i ∧
    (interp acc).humidityLow.getMsbD i = acc.getMsbD (8 + i) ∧
    (interp acc).temperatureHigh.getMsbD i = acc.getMsbD (16 + i) ∧
    (interp acc).temperatureLow.getMsbD i = acc.getMsbD (24 + i) ∧
    (interp acc).checksum.getMsbD i = acc.getMsbD (32 + i) := by
  have htop := extractByte_getMsbD acc le_rfl hi
  rw [Nat.sub_self, Nat.zero_add] at htop
  exact ⟨htop, extractByte_getMsbD acc (by decide) hi, extractByte_getMsbD acc (by decide) hi,
    extractByte_getMsbD acc (by decide) hi, extractByte_getMsbD acc (by decide) hi⟩

/-! ## The admissible edges of READING_BITS -/

theorem transition_gap (hr : s.Ready) (hp : s.phase = .readingBits) (hg : s.GapLen ts) :
    s.transition s.cfg.startLevel.toLevel ts = s.afterPhase s.cfg.startLevel.toLevel ts .readingBits .gap := by
  rw [transition_of_reading hr hp, if_pos ⟨by simp, hg⟩]

theorem transition_bit {b : Bool} (hr : s.Ready) (hp : s.phase = .readingBits) (hb : s.BitLen ts b) :
    s.transition s.cfg.bitLevel.toLevel ts = s.afterRecord s.cfg.bitLevel.toLevel ts b := by
  have hlevel : s.cfg.isBit s.cfg.bitLevel.toLevel = true := by simp
  rw [transition_of_reading hr hp, if_neg (by simp [s.cfg.bitLevel_ne_startLevel])]
  cases b with
  | false => rw [if_pos ⟨hlevel, hb⟩]
  | true => rw [if_neg fun h => Bool.noConfusion (bitLen_unique hr.1 h.2 hb), if_pos ⟨hlevel, hb⟩]

theorem step_present_edge (hr : s.Ready) (p : PinLevel) :
    step (s.present (encode (p.edge ts))) = .next ((s.setInputs []).transition p.toLevel ts) := by
  rw [step_present, decode_encode_edge, exec_edge, processEvent_of_ready (s := s.setInputs []) hr]

/-- A gap presented in READING_BITS. -/
theorem step_present_gap (hr : s.Ready) (hp : s.phase = .readingBits) (hg : s.GapLen ts) :
    step (s.present (encode (s.cfg.startLevel.edge ts))) =
      .next ((s.setInputs []).afterPhase s.cfg.startLevel.toLevel ts .readingBits .gap) := by
  rw [step_present_edge hr]
  exact congrArg _ (transition_gap (s := s.setInputs []) hr hp hg)

/-- A bit presented in READING_BITS that is not the 40th. -/
theorem step_present_bit {b : Bool} (hr : s.Ready) (hp : s.phase = .readingBits) (hb : s.BitLen ts b)
    (h40 : s.bitCount.toNat + 1 ≠ 40) :
    step (s.present (encode (s.cfg.bitLevel.edge ts))) =
      .next ((s.setInputs []).afterBit s.cfg.bitLevel.toLevel ts b) := by
  rw [step_present_edge hr]
  exact congrArg _ ((transition_bit (s := s.setInputs []) hr hp hb).trans (if_neg h40))

/-- The 40th bit presented in READING_BITS. -/
theorem step_present_fortiethBit {b : Bool} (hr : s.Ready) (hp : s.phase = .readingBits) (hb : s.BitLen ts b)
    (h40 : s.bitCount.toNat + 1 = 40) :
    step (s.present (encode (s.cfg.bitLevel.edge ts))) =
      .next ((s.setInputs []).afterFrame s.cfg.bitLevel.toLevel ts b) := by
  rw [step_present_edge hr]
  exact congrArg _ ((transition_bit (s := s.setInputs []) hr hp hb).trans (if_pos h40))

theorem afterBit_bitCount_toNat {b : Bool} (h : s.bitCount.toNat ≤ 40) :
    (s.afterBit lvl ts b).bitCount.toNat = s.bitCount.toNat + 1 := by
  rw [State.afterBit, State.after_bitCount, ofNat_bitCount_succ, bitCount_add_one h]

/-! ## A stream that completes a frame -/

/-- The run emits one frame, `Interp(acc)`, in its last step, and leaves IDLE, 40, the tick `last` and `acc`. -/
def EmitsInLastStep (k : Nat) (s : State) (ws : List EventWord) (last : Tick) (acc : Accumulator) : Prop :=
  (runFrom k s ws).frames = [(k + ws.length - 1, interp acc)] ∧
  ∃ t, (runFrom k s ws).final = some t ∧ t.phase = .idle ∧ t.bitCount = 40 ∧ t.lastTimestamp = last ∧
    t.accumulator = acc

/-- A first step without a frame leaves the emission to the rest of the run. -/
theorem EmitsInLastStep.cons {w : EventWord} {k : Nat} {ws : List EventWord} {last : Tick} {acc : Accumulator}
    (hst : step (s.present w) = .next t) (hf : t.frameOut = none) (h : EmitsInLastStep (k + 1) t ws last acc) :
    EmitsInLastStep k s (w :: ws) last acc := by
  obtain ⟨hframes, hfinal⟩ := h
  rw [EmitsInLastStep, runFrom_cons_next hst, hf, List.length_cons]
  exact ⟨by simp [hframes], hfinal⟩

/-- The step that records the 40th bit, as a run of its own. -/
theorem emitsInLastStep_fortiethBit {b : Bool} (k : Nat) (hr : s.Ready) (hp : s.phase = .readingBits)
    (hb : s.BitLen ts b) (h40 : s.bitCount.toNat + 1 = 40) :
    EmitsInLastStep k s [encode (s.cfg.bitLevel.edge ts)] ts (shiftIn s.accumulator b) := by
  rw [EmitsInLastStep, runFrom_cons_next (step_present_fortiethBit hr hp hb h40), shiftIn_eq_entered]
  exact ⟨rfl, _, rfl, rfl, rfl, rfl, rfl⟩

/-- A stream whose bits bring the counter to 40 emits in its last step, with its bits shifted in, in order: a gap and a
bit that is not the last keep READING_BITS without a frame. -/
theorem emitsInLastStep_of_carriesBits {c : Config} {last last' : Tick} {ws : List EventWord} {bits : List Bool}
    (h : CarriesBits c last ws bits last') :
    ∀ (k : Nat) (s : State), s.cfg = c → s.lastTimestamp = last → s.Ready → s.phase = .readingBits → bits ≠ [] →
      s.bitCount.toNat + bits.length = 40 →
      EmitsInLastStep k s ws last' (bits.foldl shiftIn s.accumulator) := by
  induction h with
  | done => exact fun _ _ _ _ _ _ hne => absurd rfl hne
  | gap last ts last' ws b bs band rest ih =>
    rintro k s rfl rfl hr hp hne hlen
    exact .cons (step_present_gap hr hp band) rfl (ih _ _ rfl rfl hr rfl hne hlen)
  | bit last ts last' ws b bs band rest ih =>
    rintro k s rfl rfl hr hp - hlen
    rw [List.foldl_cons]
    cases bs with
    | nil =>
      cases rest
      exact emitsInLastStep_fortiethBit k hr hp band hlen
    | cons b' bs =>
      have h40 : s.bitCount.toNat + 1 + (b' :: bs).length = 40 := by
        rw [List.length_cons] at hlen; omega
      have hcount : ((s.setInputs []).afterBit s.cfg.bitLevel.toLevel ts b).bitCount.toNat = s.bitCount.toNat + 1 :=
        afterBit_bitCount_toNat hr.2
      have hst := step_present_bit hr hp band (by rw [List.length_cons] at h40; omega)
      rw [shiftIn_eq_entered]
      exact .cons hst rfl (ih _ _ rfl rfl ⟨hr.1, by omega⟩ rfl (List.cons_ne_nil _ _) (by rw [hcount, h40]))

/-- Settles O48: from a fresh accumulator the 40 bits shift through to their places, and `Interp` cuts the accumulator
into bytes from the top. -/
theorem frameIsMostSignificantFirst : Obligations.FrameIsMostSignificantFirst := by
  intro k s ws bits last hw hp hcount hacc hbits hlen
  have hzero : s.bitCount.toNat = 0 := by rw [hcount]; rfl
  have hne : bits ≠ [] := List.ne_nil_of_length_pos (by omega)
  obtain ⟨hframes, t, hfinal, hidle, h40, hlast, hentered⟩ :=
    emitsInLastStep_of_carriesBits hbits k s rfl rfl ⟨hw, by omega⟩ hp hne (by omega)
  rw [hacc] at hframes hentered
  refine ⟨_, t, hframes, hfinal, hidle, h40, hlast, fun i hi => ?_, fun i hi => ?_⟩
  · rw [hentered, foldl_shiftIn_getMsbD hlen hi]
  · obtain ⟨hhh, hhl, hth, htl, hck⟩ := interp_getMsbD (bits.foldl shiftIn 0) hi
    rw [hhh, hhl, hth, htl, hck]
    exact ⟨foldl_shiftIn_getMsbD hlen (by omega), foldl_shiftIn_getMsbD hlen (by omega),
      foldl_shiftIn_getMsbD hlen (by omega), foldl_shiftIn_getMsbD hlen (by omega),
      foldl_shiftIn_getMsbD hlen (by omega)⟩

end Sys2Proof.Machine

/-! # The edge events (40_edge_events.md) -/

namespace Sys2Proof

/-! ## The two edge rows of spec/opcode_table.json (R69, R70) -/

theorem decode_evLow_of_mask {w : EventWord} (h : w &&& 0x300000000#34 = 0x000000000#34) :
    decode w = .evLow (BitVec.ofNat 32 w.toNat) := by
  rw [decode_of_low ((mask_match_iff w 0b00#2).1 h), tsField_eq_ofNat]

theorem decode_evHigh_of_mask {w : EventWord} (h : w &&& 0x300000000#34 = 0x100000000#34) :
    decode w = .evHigh (BitVec.ofNat 32 w.toNat) := by
  rw [decode_of_high ((mask_match_iff w 0b01#2).1 h), tsField_eq_ofNat]

/-- The elapsed ticks do not see whole wraps of the counter between two events (R85). -/
theorem elapsed_ofNat_add (last : Tick) (e : Nat) : elapsed last (BitVec.ofNat 32 (last.toNat + e)) = e % 2 ^ 32 := by
  have := last.isLt
  rw [elapsed, BitVec.toNat_ofNat]
  omega

namespace Machine

variable {s : State} {ts : Tick}

/-! ## The bands of R8's table -/

theorem preambleLen_iff (hb : s.cfg.DefaultBands) : s.PreambleLen ts ↔ 70 < s.len ts ∧ s.len ts < 95 := by
  obtain ⟨hlo, hhi, -⟩ := hb
  rw [State.PreambleLen, hlo, hhi]

theorem gapLen_iff (hb : s.cfg.DefaultBands) : s.GapLen ts ↔ 35 ≤ s.len ts ∧ s.len ts ≤ 65 := by
  obtain ⟨-, -, hlo, hhi, -⟩ := hb
  rw [State.GapLen, hlo, hhi]

theorem bitLen_false_iff (hb : s.cfg.DefaultBands) : s.BitLen ts false ↔ 15 ≤ s.len ts ∧ s.len ts ≤ 35 := by
  obtain ⟨-, -, -, -, hlo, hhi, -⟩ := hb
  rw [State.BitLen, if_neg Bool.false_ne_true, hlo, hhi]

theorem bitLen_true_iff (hb : s.cfg.DefaultBands) : s.BitLen ts true ↔ 60 ≤ s.len ts ∧ s.len ts ≤ 80 := by
  obtain ⟨-, -, -, -, -, -, hlo, hhi⟩ := hb
  rw [State.BitLen, if_pos rfl, hlo, hhi]

/-! ## Each event in each phase

R68 for an event whose role is known: the start level, the bit level, or the timeout, which has neither. -/

theorem exec_edge_of_ready (hr : s.Ready) (p : PinLevel) : exec (p.edge ts) s = .next (s.transition p.toLevel ts) := by
  rw [exec_edge, processEvent_of_ready hr]

theorem startLevel_isStart (s : State) : s.cfg.isStart s.cfg.startLevel.toLevel = true := by simp

theorem startLevel_not_isBit (s : State) : ¬ s.cfg.isBit s.cfg.startLevel.toLevel = true := by
  simp [s.cfg.startLevel_ne_bitLevel]

theorem bitLevel_isBit (s : State) : s.cfg.isBit s.cfg.bitLevel.toLevel = true := by simp

theorem bitLevel_not_isStart (s : State) : ¬ s.cfg.isStart s.cfg.bitLevel.toLevel = true := by
  simp [s.cfg.bitLevel_ne_startLevel]

theorem exec_startEdge_of_idle (hr : s.Ready) (hp : s.phase = .idle) :
    exec (s.cfg.startLevel.edge ts) s = .next
      (if s.PreambleLen ts then s.afterPhase s.cfg.startLevel.toLevel ts .preambleStarted .preStart
       else s.afterPhase s.cfg.startLevel.toLevel ts .idle .ignored) := by
  rw [exec_edge_of_ready hr, transition_of_idle hp]
  simp only [startLevel_isStart, true_and]

theorem exec_bitEdge_of_idle (hr : s.Ready) (hp : s.phase = .idle) :
    exec (s.cfg.bitLevel.edge ts) s = .next (s.afterPhase s.cfg.bitLevel.toLevel ts .idle .ignored) := by
  rw [exec_edge_of_ready hr, transition_of_idle hp, if_neg fun h => bitLevel_not_isStart s h.1]

theorem exec_startEdge_of_preamble (hr : s.Ready) (hp : s.phase = .preambleStarted) :
    exec (s.cfg.startLevel.edge ts) s = .next (s.afterPhase s.cfg.startLevel.toLevel ts .idle .abortProto) := by
  rw [exec_edge_of_ready hr, transition_of_preamble hp, if_neg fun h => startLevel_not_isBit s h.1, abortCode_toLevel]

theorem exec_bitEdge_of_preamble (hr : s.Ready) (hp : s.phase = .preambleStarted) :
    exec (s.cfg.bitLevel.edge ts) s = .next
      (if s.PreambleLen ts then s.after s.cfg.bitLevel.toLevel ts .readingBits 0 0 .preDone none
       else s.afterPhase s.cfg.bitLevel.toLevel ts .idle .abortProto) := by
  rw [exec_edge_of_ready hr, transition_of_preamble hp, abortCode_toLevel]
  simp only [bitLevel_isBit, true_and]

theorem exec_startEdge_of_reading (hr : s.Ready) (hp : s.phase = .readingBits) :
    exec (s.cfg.startLevel.edge ts) s = .next
      (if s.GapLen ts then s.afterPhase s.cfg.startLevel.toLevel ts .readingBits .gap
       else s.afterPhase s.cfg.startLevel.toLevel ts .idle .abortProto) := by
  rw [exec_edge_of_ready hr, transition_of_reading hr hp, abortCode_toLevel]
  simp only [startLevel_isStart, startLevel_not_isBit, true_and, Bool.false_eq_true, false_and, if_false]

theorem exec_bitEdge_of_reading (hr : s.Ready) (hp : s.phase = .readingBits) :
    exec (s.cfg.bitLevel.edge ts) s = .next
      (if s.BitLen ts false then s.afterRecord s.cfg.bitLevel.toLevel ts false
       else if s.BitLen ts true then s.afterRecord s.cfg.bitLevel.toLevel ts true
       else s.afterPhase s.cfg.bitLevel.toLevel ts .idle .abortProto) := by
  rw [exec_edge_of_ready hr, transition_of_reading hr hp, abortCode_toLevel]
  simp only [bitLevel_isBit, bitLevel_not_isStart, true_and, Bool.false_eq_true, false_and, if_false]

/-- The two bit bands are disjoint, so a bit-level edge in the band of `b` records `b` and no other bit. -/
theorem exec_bitEdge_records {b : Bool} (hr : s.Ready) (hp : s.phase = .readingBits) (hlen : s.BitLen ts b) :
    exec (s.cfg.bitLevel.edge ts) s = .next (s.afterRecord s.cfg.bitLevel.toLevel ts b) := by
  rw [exec_edge_of_ready hr, transition_bit hr hp hlen]

theorem exec_bitEdge_records_next {b : Bool} (hr : s.Ready) (hp : s.phase = .readingBits) (hlen : s.BitLen ts b)
    (h40 : s.bitCount.toNat + 1 ≠ 40) :
    exec (s.cfg.bitLevel.edge ts) s = .next (s.afterBit s.cfg.bitLevel.toLevel ts b) := by
  rw [exec_bitEdge_records hr hp hlen, State.afterRecord, if_neg h40]

theorem exec_bitEdge_records_fortieth {b : Bool} (hr : s.Ready) (hp : s.phase = .readingBits) (hlen : s.BitLen ts b)
    (h40 : s.bitCount.toNat + 1 = 40) :
    exec (s.cfg.bitLevel.edge ts) s = .next (s.afterFrame s.cfg.bitLevel.toLevel ts b) := by
  rw [exec_bitEdge_records hr hp hlen, State.afterRecord, if_pos h40]

/-- A timeout has neither level, so no band test succeeds (R89). -/
theorem exec_wdog_of_ready (hr : s.Ready) : exec (.evWdog ts) s = .next (s.asWatchdog ts) := by
  have hstart : ¬ s.cfg.isStart .watchdogTimeout = true := by simp
  have hbit : ¬ s.cfg.isBit .watchdogTimeout = true := by simp
  rw [exec_wdog, processEvent_of_ready hr, State.asWatchdog]
  cases hp : s.phase with
  | idle => rw [transition_of_idle hp, if_neg fun h => hstart h.1, if_pos rfl]
  | preambleStarted => rw [transition_of_preamble hp, if_neg fun h => hbit h.1, if_neg Phase.noConfusion, abortCode]
  | readingBits =>
    rw [transition_of_reading hr hp, if_neg fun h => hstart h.1, if_neg fun h => hbit h.1, if_neg fun h => hbit h.1,
      if_neg Phase.noConfusion, abortCode]

theorem exec_wdog_of_idle (hr : s.Ready) (hp : s.phase = .idle) :
    exec (.evWdog ts) s = .next (s.afterPhase .watchdogTimeout ts .idle .ignored) := by
  rw [exec_wdog_of_ready hr, State.asWatchdog, if_pos hp]

theorem exec_wdog_aborts (hr : s.Ready) (hp : s.phase ≠ .idle) :
    exec (.evWdog ts) s = .next (s.afterPhase .watchdogTimeout ts .idle .abortWdog) := by
  rw [exec_wdog_of_ready hr, State.asWatchdog, if_neg hp]

theorem leadsTo_of_after {i : Instr} {lvl : Level} {p : Phase} {a : Accumulator} {n : BitCount} {oc : OutcomeCode}
    {f : Option Frame} (h : exec i s = .next (s.after lvl ts p a n oc f)) : s.LeadsTo i p oc :=
  ⟨_, h, rfl, rfl⟩

/-! ## IDLE (R71, R72) -/

/-- Settles O10: in IDLE only the start level is compared with a band. -/
theorem idleIgnoresEveryOtherEvent : Obligations.IdleIgnoresEveryOtherEvent := by
  intro s ts hr hp
  refine ⟨fun hout => ?_, exec_bitEdge_of_idle hr hp, exec_wdog_of_idle hr hp⟩
  rw [exec_startEdge_of_idle hr hp, if_neg hout, State.afterPhase]

/-- Settles O9: the preamble band decides a start-level edge in IDLE, and its bounds are exclusive. -/
theorem preambleStarts : Obligations.PreambleStarts := by
  intro s ts hr hp
  have hin (h : s.PreambleLen ts) : exec (s.cfg.startLevel.edge ts) s = .next
      (s.after s.cfg.startLevel.toLevel ts .preambleStarted s.accumulator s.bitCount .preStart none) := by
    rw [exec_startEdge_of_idle hr hp, if_pos h, State.afterPhase]
  obtain ⟨hout, -, -⟩ := idleIgnoresEveryOtherEvent s ts hr hp
  refine ⟨hin, fun hb => ?_⟩
  rw [preambleLen_iff hb] at hin hout
  exact ⟨fun h => leadsTo_of_after (hin (by omega)), fun h => leadsTo_of_after (hout (by omega))⟩

/-! ## PREAMBLE_STARTED (R73, R75) -/

/-- Settles O12: in PREAMBLE_STARTED only the bit level is compared with a band. -/
theorem preambleAborts : Obligations.PreambleAborts := by
  intro s ts hr hp
  refine ⟨exec_startEdge_of_preamble hr hp, fun hout => ?_, exec_wdog_aborts hr (by simp [hp])⟩
  rw [exec_bitEdge_of_preamble hr hp, if_neg hout, State.afterPhase]

/-- Settles O11: the preamble band decides a bit-level edge in PREAMBLE_STARTED, and its bounds are exclusive. -/
theorem preambleCompletes : Obligations.PreambleCompletes := by
  intro s ts hr hp
  rw [← Config.bitLevel]
  have hin (h : s.PreambleLen ts) : exec (s.cfg.bitLevel.edge ts) s = .next
      (s.after s.cfg.bitLevel.toLevel ts .readingBits 0 0 .preDone none) := by
    rw [exec_bitEdge_of_preamble hr hp, if_pos h]
  obtain ⟨-, hout, -⟩ := preambleAborts s ts hr hp
  refine ⟨hin, fun hb => ?_⟩
  rw [preambleLen_iff hb] at hin hout
  exact ⟨fun h => leadsTo_of_after (hin (by omega)), fun h => leadsTo_of_after (hout (by omega))⟩

/-! ## READING_BITS (R77 to R82) -/

/-- Settles O18: the gap band is the start level's only exit from the abort, and the two bit bands are the bit level's. -/
theorem readingBitsAborts : Obligations.ReadingBitsAborts := by
  intro s ts hr hp
  refine ⟨fun hout => ?_, fun h0 h1 => ?_, exec_wdog_aborts hr (by simp [hp])⟩
  · rw [exec_startEdge_of_reading hr hp, if_neg hout, State.afterPhase]
  · rw [exec_bitEdge_of_reading hr hp, if_neg h0, if_neg h1, State.afterPhase]

/-- Settles O13: the gap band decides a start-level edge in READING_BITS, and its bounds are inclusive. -/
theorem gapRecordsNoBit : Obligations.GapRecordsNoBit := by
  intro s ts hr hp
  have hin (h : s.GapLen ts) : exec (s.cfg.startLevel.edge ts) s = .next
      (s.after s.cfg.startLevel.toLevel ts .readingBits s.accumulator s.bitCount .gap none) := by
    rw [exec_startEdge_of_reading hr hp, if_pos h, State.afterPhase]
  obtain ⟨hout, -, -⟩ := readingBitsAborts s ts hr hp
  refine ⟨hin, fun hb => ?_⟩
  rw [gapLen_iff hb] at hin hout
  exact ⟨fun h => leadsTo_of_after (hin (by omega)), fun h => leadsTo_of_after (hout (by omega))⟩

/-- Settles O14: an edge in the 0 band records `false`; 14 and 36 lie in neither bit band. -/
theorem zeroBitIsRecorded : Obligations.ZeroBitIsRecorded := by
  intro s ts hr hp
  obtain ⟨-, hout, -⟩ := readingBitsAborts s ts hr hp
  refine ⟨fun hlo hhi => ?_, fun hb => ?_⟩
  · have hlen : s.BitLen ts false := ⟨hlo, hhi⟩
    exact ⟨exec_bitEdge_records_next hr hp hlen, exec_bitEdge_records_fortieth hr hp hlen⟩
  · rw [bitLen_false_iff hb, bitLen_true_iff hb] at hout
    refine ⟨fun h40 h => ?_, fun h => leadsTo_of_after (hout (by omega) (by omega))⟩
    exact leadsTo_of_after (exec_bitEdge_records_next hr hp ((bitLen_false_iff hb).2 (by omega)) h40)

/-- Settles O15: an edge in the 1 band records `true`; 59 and 81 lie in neither bit band. -/
theorem oneBitIsRecorded : Obligations.OneBitIsRecorded := by
  intro s ts hr hp
  obtain ⟨-, hout, -⟩ := readingBitsAborts s ts hr hp
  refine ⟨fun hlo hhi => ?_, fun hb => ?_⟩
  · have hlen : s.BitLen ts true := ⟨hlo, hhi⟩
    exact ⟨exec_bitEdge_records_next hr hp hlen, exec_bitEdge_records_fortieth hr hp hlen⟩
  · rw [bitLen_false_iff hb, bitLen_true_iff hb] at hout
    refine ⟨fun h40 h => ?_, fun h => leadsTo_of_after (hout (by omega) (by omega))⟩
    exact leadsTo_of_after (exec_bitEdge_records_next hr hp ((bitLen_true_iff hb).2 (by omega)) h40)

/-- Settles O17: with 39 bits counted, the recorded bit is the 40th, whichever it is. -/
theorem fortiethBitEmits : Obligations.FortiethBitEmits :=
  fun _ _ _ hr hp hn hlen => exec_bitEdge_records_fortieth hr hp hlen (by rw [hn]; rfl)

/-! ## Recording loses no bit (R78) -/

section
variable (s : State) (lvl : Level) (ts : Tick) (b : Bool)

@[simp] theorem afterRecord_accumulator : (s.afterRecord lvl ts b).accumulator = s.entered b := by
  unfold State.afterRecord
  split <;> rfl

@[simp] theorem afterRecord_bitCount : (s.afterRecord lvl ts b).bitCount = s.bitCount + 1 := by
  rw [← ofNat_bitCount_succ]
  unfold State.afterRecord
  split
  · next h40 => rw [h40]; rfl
  · rfl

end

/-- R32: as long as a bit can still be recorded, the accumulator leaves its top bit free. -/
theorem accumulator_lt_of_countBounded (h : s.CountBounded) (hp : s.phase = .readingBits) :
    s.accumulator.toNat < 2 ^ 39 := by
  obtain ⟨hn, hacc⟩ := h.2 hp
  exact hacc.trans_le (Nat.pow_le_pow_right Nat.two_pos hn)

theorem entered_toNat (h : s.accumulator.toNat < 2 ^ 39) (b : Bool) :
    (s.entered b).toNat = 2 * s.accumulator.toNat + b.toNat := by
  have := b.toNat_lt
  rw [State.entered, BitVec.toNat_ofNat]
  omega

/-- Settles O16: the accumulator is below `2^39`, so bit 39 is 0 and doubling it does not wrap. -/
theorem recordedBitsAreNeverLost : Obligations.RecordedBitsAreNeverLost := by
  intro s ts b hr hcount hp hlen
  have hacc := accumulator_lt_of_countBounded hcount hp
  refine ⟨Nat.testBit_lt_two_pow hacc, _, exec_bitEdge_records hr hp hlen, ?_, ?_, ?_⟩
  · rw [afterRecord_accumulator, entered_eq_shift_or]
  · rw [afterRecord_accumulator, entered_toNat hacc]
  · rw [afterRecord_bitCount, bitCount_add_one hr.2]

/-! ## The events by name, with R8's numbers (R69, R70) -/

/-- R69: the level opposite to the start level, phase by phase. -/
theorem exec_edge_asBitLevel (hr : s.Ready) (hb : s.cfg.DefaultBands) {p : PinLevel} (h : p = s.cfg.bitLevel) :
    exec (p.edge ts) s = .next (s.asBitLevel p.toLevel ts) := by
  subst h
  unfold State.asBitLevel
  cases hp : s.phase with
  | idle => rw [exec_bitEdge_of_idle hr hp]
  | preambleStarted => simp only [exec_bitEdge_of_preamble hr hp, preambleLen_iff hb]
  | readingBits => simp only [exec_bitEdge_of_reading hr hp, bitLen_false_iff hb, bitLen_true_iff hb]

/-- R70: the start level, phase by phase. -/
theorem exec_edge_asStartLevel (hr : s.Ready) (hb : s.cfg.DefaultBands) {p : PinLevel} (h : p = s.cfg.startLevel) :
    exec (p.edge ts) s = .next (s.asStartLevel p.toLevel ts) := by
  subst h
  unfold State.asStartLevel
  cases hp : s.phase with
  | idle => simp only [exec_startEdge_of_idle hr hp, preambleLen_iff hb]
  | preambleStarted => rw [exec_startEdge_of_preamble hr hp]
  | readingBits => simp only [exec_startEdge_of_reading hr hp, gapLen_iff hb]

/-- Settles O19: LOW is the bit level where the start level is HIGH, and the start level where that is LOW. -/
theorem evLowByItsRule : Obligations.EvLowByItsRule := by
  refine ⟨fun _ => decode_evLow_of_mask, fun s ts hr hb => ⟨fun h => ?_, fun h => ?_⟩⟩
  · exact exec_edge_asBitLevel hr hb (p := .low) (by rw [Config.bitLevel, h]; rfl)
  · exact exec_edge_asStartLevel hr hb (p := .low) h.symm

/-- Settles O20: HIGH is the start level where that is HIGH, and the bit level where the start level is LOW. -/
theorem evHighByItsRule : Obligations.EvHighByItsRule := by
  refine ⟨fun _ => decode_evHigh_of_mask, fun s ts hr hb => ⟨fun h => ?_, fun h => ?_⟩⟩
  · exact exec_edge_asStartLevel hr hb (p := .high) h.symm
  · exact exec_edge_asBitLevel hr hb (p := .high) (by rw [Config.bitLevel, h]; rfl)

/-! ## The duration across a wrap (R85) -/

/-- Settles O59: the model's duration is the elapsed tick count, which does not see whole wraps. -/
theorem durationAcrossAWrap : Obligations.DurationAcrossAWrap := by
  intro s e
  rw [State.duration_toNat, State.len, elapsed_ofNat_add]
  exact ⟨rfl, rfl⟩

end Machine

end Sys2Proof

/-! # The timeout event, the reserved level and no event (41_timeout_event.md) -/

namespace Sys2Proof.Machine

variable {s : State} {p : PortInput} {rest : List PortInput}

/-! ## The timeout (R89) -/

/-- Settles O21: the row's level code is the timeout's, and a timeout leads to IDLE from every phase. -/
theorem evWdogByItsRule : Obligations.EvWdogByItsRule := by
  refine ⟨fun w h => ?_, fun s ts hr => exec_wdog_of_ready hr⟩
  rw [decode_of_wdog ((mask_match_iff w 0b10#2).1 h), tsField_eq_ofNat]

/-! ## The reserved level (R93) -/

theorem exec_reserved (ts : Tick) (s : State) : exec (.reservedLvl3 ts) s = .refused .reservedLevel := rfl

theorem exec_decode_reserved {w : EventWord} (h : w &&& 0x300000000#34 = 0x300000000#34) (s : State) :
    exec (decode w) s = .refused .reservedLevel := by
  rw [decode_of_reserved ((mask_match_iff w 0b11#2).1 h), exec_reserved]

/-- Settles O22: the refusal looks at the level code alone, and a run ends at the first refusal. -/
theorem reservedLevelIsRefused : Obligations.ReservedLevelIsRefused := by
  refine ⟨exec_reserved, fun s p rest hi hrst hv hw => ?_, fun k s w ws hw => ?_⟩
  · rw [step_of_cons hi, stepInput_event hrst hv, exec_decode_reserved hw]
  · exact runFrom_cons_refused ((step_present w).trans (exec_decode_reserved hw _)) k ws

/-! ## No event (R94) -/

theorem stepInput_noEvent (hrst : p.rst = false) (hv : p.evValid = false) : stepInput p s = s.noStep := by
  simp [stepInput, hrst, hv]

theorem step_noEvent (hw : s.cfg.WellFormed) (hi : s.inputs = p :: rest) (hrst : p.rst = false)
    (hv : p.evValid = false) : step s = .next (s.setInputs rest).clearOutputs := by
  rw [step_of_cons hi, stepInput_noEvent hrst hv]
  exact noStep_next.2 ⟨hw, rfl⟩

theorem step_noEvent_tail (hw : s.cfg.WellFormed) (hq : ∀ p ∈ s.inputs, p.rst = false ∧ p.evValid = false)
    (hn : 0 < s.inputs.length) : step s = .next (s.setInputs s.inputs.tail).clearOutputs := by
  obtain ⟨p, rest, hi⟩ := List.exists_cons_of_length_pos hn
  obtain ⟨hrst, hv⟩ := hq p (by simp [hi])
  rw [step_noEvent hw hi hrst hv, hi, List.tail_cons]

/-- One or more presentations without an event: the ports are cleared, the presentations are consumed, and that is all. -/
theorem core_run_noEvents (n : Nat) : ∀ s : State, s.cfg.WellFormed →
    (∀ p ∈ s.inputs, p.rst = false ∧ p.evValid = false) → n + 1 ≤ s.inputs.length →
    core.run (n + 1) s = .next (s.setInputs (s.inputs.drop (n + 1))).clearOutputs := by
  induction n with
  | zero =>
    intro s hw hq hn
    rw [core_run_succ_next (step_noEvent_tail hw hq hn), List.drop_one]
    rfl
  | succ n ih =>
    intro s hw hq hn
    have htail : n + 1 ≤ s.inputs.tail.length := by rw [List.length_tail]; omega
    rw [core_run_succ_next (step_noEvent_tail hw hq (by omega)),
      ih (s.setInputs s.inputs.tail).clearOutputs hw (fun p hp => hq p (List.mem_of_mem_tail hp)) htail,
      ← List.drop_tail (l := s.inputs)]
    rfl

/-- Settles O8: one such presentation clears the ports and leaves the registers, and so do any number, by induction. -/
theorem noEventIsNoStep : Obligations.NoEventIsNoStep := by
  refine ⟨fun s p rest hw hi hrst hv => step_noEvent hw hi hrst hv, fun n s hw hq hn => ?_⟩
  cases n with
  | zero => exact ⟨s, rfl, ⟨rfl, rfl, rfl, rfl⟩, rfl, rfl, fun h => absurd h (Nat.lt_irrefl 0)⟩
  | succ n => exact ⟨_, core_run_noEvents n s hw hq hn, ⟨rfl, rfl, rfl, rfl⟩, rfl, rfl, fun _ => ⟨rfl, rfl⟩⟩

end Sys2Proof.Machine

/-! # The Frame Interpreter (42_frame_interpreter.md) -/

namespace Sys2Proof.Machine

/-! ## The fields (R96) -/

/-- The number of one byte of the accumulator. -/
theorem extractByte_toNat (acc : Accumulator) (lo : Nat) :
    (acc.extractLsb' lo 8).toNat = acc.toNat / 2 ^ lo % 2 ^ 8 := by
  rw [BitVec.extractLsb'_toNat, Nat.shiftRight_eq_div_pow]

/-- Settles O37: each field is one byte of the accumulator, and no bit stands above the first or below the last. -/
theorem interpSplitsIntoBytes : Obligations.InterpSplitsIntoBytes := by
  intro acc
  have hhigh : acc.toNat / 2 ^ 32 % 2 ^ 8 = acc.toNat / 2 ^ 32 :=
    Nat.mod_eq_of_lt (Nat.div_lt_of_lt_mul acc.isLt)
  have hlow : acc.toNat / 2 ^ 0 % 2 ^ 8 = acc.toNat % 2 ^ 8 := by rw [pow_zero, Nat.div_one]
  exact ⟨(extractByte_toNat acc 32).trans hhigh, extractByte_toNat acc 24, extractByte_toNat acc 16,
    extractByte_toNat acc 8, (extractByte_toNat acc 0).trans hlow⟩

/-- The five bytes side by side are the accumulator, so `frame_word` is `{valid, acc}` (R60, R98). -/
theorem interp_word (acc : Accumulator) : (interp acc).word = BitVec.ofBool (interp acc).valid ++ acc := by
  obtain ⟨hhh, hhl, hth, htl, hck⟩ := interpSplitsIntoBytes acc
  rw [Frame.word]
  congr 1
  apply BitVec.eq_of_toNat_eq
  simp only [append_toNat, hhh, hhl, hth, htl, hck]
  omega

/-! ## The sum and the verdict (R97, R98) -/

theorem checksumSum_toNat (hh hl th tl : Byte) :
    (checksumSum hh hl th tl).toNat = (hh.toNat + hl.toNat + th.toNat + tl.toNat) % 256 := by
  simp only [checksumSum, BitVec.toNat_add]
  omega

theorem verdict_iff (hh hl th tl ck : Byte) : verdict hh hl th tl ck = true ↔ ck = checksumSum hh hl th tl :=
  beq_iff_eq

theorem interp_valid_eq_verdict (acc : Accumulator) :
    (interp acc).valid = verdict (acc.extractLsb' 32 8) (acc.extractLsb' 24 8) (acc.extractLsb' 16 8)
      (acc.extractLsb' 8 8) (acc.extractLsb' 0 8) := rfl

theorem interp_valid_iff (acc : Accumulator) : (interp acc).valid = true ↔ (interp acc).SumMatches := by
  rw [Frame.SumMatches, ← checksumSum_toNat, BitVec.toNat_inj, interp_valid_eq_verdict, verdict_iff]
  rfl

/-- Settles O38: addition mod 256 is commutative and associative. -/
theorem checksumSumWraps : Obligations.ChecksumSumWraps := by
  intro hh hl th tl
  refine ⟨checksumSum_toNat hh hl th tl, ?_, ?_, ?_, ?_, rfl⟩
  · rw [checksumSum, add_comm hl, checksumSum]
  · rw [checksumSum, add_right_comm hh, checksumSum]
  · rw [checksumSum, add_right_comm _ tl, checksumSum]
  · rw [checksumSum, add_assoc, add_assoc]

/-- Settles O39: the comparison of two bytes is the comparison of their numbers, and no byte of the word moves. -/
theorem validIsTheChecksumComparison : Obligations.ValidIsTheChecksumComparison :=
  fun acc => ⟨interp_valid_iff acc, interp_word acc⟩

/-! ## Emission whatever the verdict (R99) -/

/-- Settles O40: the emission of the 40th bit does not ask for the verdict, which is the frame's own. -/
theorem badChecksumStillEmits : Obligations.BadChecksumStillEmits :=
  fun s ts b hr hp hn hlen =>
    ⟨_, _, fortiethBitEmits s ts b hr hp hn hlen, rfl, interp_valid_iff _, rfl, rfl, rfl, rfl, rfl⟩

/-! ## Corner cases (R103, R104) -/

/-- The verdict where the four data bytes, as one word, and the checksum below them are given. -/
theorem interp_append_valid_iff (data : BitVec 32) (ck : Byte) :
    (interp (data ++ ck)).valid = true ↔
      ck = checksumSum (data.extractLsb' 24 8) (data.extractLsb' 16 8) (data.extractLsb' 8 8) (data.extractLsb' 0 8) := by
  have hck : BitVec.extractLsb' (n := 40) 0 8 (data ++ ck) = ck := BitVec.extractLsb'_append_eq_right
  have hdata {lo : Nat} (h : 8 ≤ lo) :
      BitVec.extractLsb' (n := 40) lo 8 (data ++ ck) = data.extractLsb' (lo - 8) 8 :=
    BitVec.extractLsb'_append_eq_of_le h
  rw [interp_valid_eq_verdict, verdict_iff, hck, hdata (by decide), hdata (by decide), hdata (by decide),
    hdata (by decide)]

/-- Settles O41: the sums are 0x00, 0xFC, 0x00 and 0x65. -/
theorem verdictCornerCases : Obligations.VerdictCornerCases :=
  ⟨(interp_valid_iff _).2 (by decide), interp_append_valid_iff 0xFFFFFFFF#32,
    (interp_valid_iff _).2 (by decide), interp_append_valid_iff 0x46001708#32⟩

end Sys2Proof.Machine

/-! # The error kinds, and a trigger's two edges (60_exceptions.md) -/

namespace Sys2Proof

theorem PinLevel.toLevel_inj {p q : PinLevel} : p.toLevel = q.toLevel ↔ p = q := by
  cases p <;> cases q <;> decide

theorem PinLevel.toLevel_ne_watchdog (p : PinLevel) : Level.watchdogTimeout ≠ p.toLevel := by
  cases p <;> decide

theorem Instr.level_eq_watchdog_iff {i : Instr} : i.level = some .watchdogTimeout ↔ ∃ ts, i = .evWdog ts := by
  cases i <;> simp [Instr.level]

theorem Config.isStart_iff {c : Config} {lvl : Level} : c.isStart lvl = true ↔ lvl = c.startLevel.toLevel := by
  rw [Config.isStart, beq_iff_eq]

namespace Machine

variable {s t : State} {lvl lvl' : Level} {p : PinLevel} {ts : Tick}

/-! ## The error kind of a step (R106) -/

/-- The last column of R106, read from the error kind: which outcome, and for a mismatch which frame, gives it. -/
theorem errorKind_eq_some_iff {k : ErrorKind} :
    t.errorKind = some k ↔ match k with
      | .protocolViolation => t.outcomeOut = some .abortProto
      | .watchdogTimeout => t.outcomeOut = some .abortWdog
      | .checksumMismatch => t.outcomeOut = some .frame ∧ ∃ f, t.frameOut = some f ∧ f.valid = false := by
  unfold State.errorKind
  rcases t.outcomeOut with _ | oc
  · cases k <;> simp
  · cases oc with
    | frame => rcases t.frameOut with _ | f <;> cases k <;> simp
    | _ => cases k <;> simp

theorem errorKind_protocolViolation_iff :
    t.errorKind = some .protocolViolation ↔ t.outcomeOut = some .abortProto := errorKind_eq_some_iff

theorem errorKind_watchdogTimeout_iff :
    t.errorKind = some .watchdogTimeout ↔ t.outcomeOut = some .abortWdog := errorKind_eq_some_iff

theorem errorKind_checksumMismatch_iff :
    t.errorKind = some .checksumMismatch ↔
      t.outcomeOut = some .frame ∧ ∃ f, t.frameOut = some f ∧ f.valid = false := errorKind_eq_some_iff

/-! ## Admissible observations and aborts (R75, R82)

`State.Admits` speaks of an edge; the transition's branches ask for a level. A timeout's level is no pin's, so no timeout
is admissible outside IDLE. -/

/-- An event of this level is an edge that is an admissible observation. -/
def State.AdmitsLevel (s : State) (lvl : Level) (ts : Tick) : Prop := ∃ p : PinLevel, lvl = p.toLevel ∧ s.Admits p ts

theorem admitsLevel_toLevel : s.AdmitsLevel p.toLevel ts ↔ s.Admits p ts := by
  simp [State.AdmitsLevel, PinLevel.toLevel_inj]

theorem not_admitsLevel_watchdog : ¬ s.AdmitsLevel .watchdogTimeout ts :=
  fun ⟨p, h, _⟩ => p.toLevel_ne_watchdog h

theorem admitsLevel_of_preamble (hp : s.phase = .preambleStarted) :
    s.AdmitsLevel lvl ts ↔ s.cfg.isBit lvl = true ∧ s.PreambleLen ts := by
  simp [State.AdmitsLevel, State.Admits, hp, Config.isBit_iff]

theorem admitsLevel_of_reading (hp : s.phase = .readingBits) :
    s.AdmitsLevel lvl ts ↔
      (s.cfg.isStart lvl = true ∧ s.GapLen ts) ∨ (s.cfg.isBit lvl = true ∧ ∃ b, s.BitLen ts b) := by
  simp only [State.AdmitsLevel, State.Admits, hp, Config.isStart_iff, Config.isBit_iff, and_or_left, exists_or,
    and_left_comm, exists_eq_left]

/-- What no phase but IDLE admits aborts. -/
theorem transition_of_not_admitted (hr : s.Ready) (hp : s.phase ≠ .idle) (h : ¬ s.AdmitsLevel lvl ts) :
    s.transition lvl ts = s.afterPhase lvl ts .idle (abortCode lvl) := by
  cases hph : s.phase with
  | idle => exact absurd hph hp
  | preambleStarted =>
    rw [admitsLevel_of_preamble hph] at h
    rw [transition_of_preamble hph, if_neg h]
  | readingBits =>
    rw [admitsLevel_of_reading hph, not_or] at h
    obtain ⟨hgap, hbit⟩ := h
    rw [transition_of_reading hr hph, if_neg hgap, if_neg fun h => hbit ⟨h.1, false, h.2⟩,
      if_neg fun h => hbit ⟨h.1, true, h.2⟩]

/-- IDLE, and every admitted event, leads to an outcome that is no abort's. -/
theorem transition_of_admitted (hr : s.Ready) (h : s.phase = .idle ∨ s.AdmitsLevel lvl ts) :
    (s.transition lvl ts).outcomeOut ≠ some .abortProto ∧ (s.transition lvl ts).outcomeOut ≠ some .abortWdog := by
  rcases transition_cases hr lvl ts with ⟨-, -, -, e⟩ | ⟨-, -, e⟩ | ⟨-, -, -, e⟩ | ⟨hp, hno, e⟩ | ⟨-, -, -, e⟩ |
    ⟨-, -, b, -, -, e⟩ | ⟨-, -, b, -, -, e⟩ | ⟨hp, hgap, hbit, e⟩ <;> rw [e]
  · exact ⟨nofun, nofun⟩
  · exact ⟨nofun, nofun⟩
  · exact ⟨nofun, nofun⟩
  · rw [admitsLevel_of_preamble hp, hp] at h
    exact absurd (h.resolve_left Phase.noConfusion) hno
  · exact ⟨nofun, nofun⟩
  · cases b <;> exact ⟨nofun, nofun⟩
  · exact ⟨nofun, nofun⟩
  · rw [admitsLevel_of_reading hp, hp] at h
    obtain h | ⟨hlvl, b, hlen⟩ := h.resolve_left Phase.noConfusion
    · exact absurd h hgap
    · exact absurd ⟨hlvl, hlen⟩ (hbit b)

/-- An outcome is an abort's exactly where an event is not admitted outside IDLE, and then the event's level names it. -/
theorem transition_outcome_abort_iff (hr : s.Ready) :
    (s.transition lvl ts).outcomeOut = some (abortCode lvl') ↔
      abortCode lvl = abortCode lvl' ∧ s.phase ≠ .idle ∧ ¬ s.AdmitsLevel lvl ts := by
  by_cases h : s.phase = .idle ∨ s.AdmitsLevel lvl ts
  · obtain ⟨hproto, hwdog⟩ := transition_of_admitted hr h
    refine iff_of_false (fun he => ?_) fun ⟨_, hp, ha⟩ => h.elim hp ha
    cases lvl' with
    | low => exact hproto he
    | high => exact hproto he
    | watchdogTimeout => exact hwdog he
  · obtain ⟨hp, ha⟩ := not_or.1 h
    rw [transition_of_not_admitted hr hp ha, State.afterPhase, State.after_outcomeOut, Option.some.injEq]
    exact ⟨fun he => ⟨he, hp, ha⟩, fun he => he.1⟩

theorem transition_outcome_abortProto_iff (hr : s.Ready) :
    (s.transition p.toLevel ts).outcomeOut = some .abortProto ↔ s.phase ≠ .idle ∧ ¬ s.Admits p ts := by
  rw [← abortCode_toLevel p, transition_outcome_abort_iff hr, admitsLevel_toLevel]
  exact and_iff_right rfl

theorem abortCode_eq_abortWdog_iff : abortCode lvl = abortCode .watchdogTimeout ↔ lvl = .watchdogTimeout := by
  cases lvl <;> decide

theorem transition_outcome_abortWdog_iff (hr : s.Ready) :
    (s.transition lvl ts).outcomeOut = some .abortWdog ↔ s.phase ≠ .idle ∧ lvl = .watchdogTimeout := by
  have hadm : lvl = .watchdogTimeout → ¬ s.AdmitsLevel lvl ts := fun h => h ▸ not_admitsLevel_watchdog
  rw [← abortCode, transition_outcome_abort_iff hr, abortCode_eq_abortWdog_iff]
  exact ⟨fun ⟨hl, hp, _⟩ => ⟨hp, hl⟩, fun ⟨hp, hl⟩ => ⟨hl, hp, hadm hl⟩⟩

/-! ## ProtocolViolation (R107) -/

/-- Settles O30: outside IDLE an edge aborts exactly if it is not admitted; a timeout's abort has the other code; and IDLE
knows two outcomes. -/
theorem protocolViolationIsALocalReset : Obligations.ProtocolViolationIsALocalReset := by
  intro p ts s hr
  rw [exec_edge_of_ready hr, exec_wdog, processEvent_of_ready hr]
  refine ⟨fun hp hno => ?_, fun t ht => ?_, fun t ht hk => ?_, fun t hp ht hpre => ?_⟩
  · rw [← admitsLevel_toLevel] at hno
    rw [transition_of_not_admitted hr hp hno, abortCode_toLevel, State.afterPhase]
  · cases ht
    rw [errorKind_protocolViolation_iff, transition_outcome_abortProto_iff hr]
  · cases ht
    rw [errorKind_protocolViolation_iff] at hk
    obtain ⟨hcode, -⟩ := (transition_outcome_abort_iff (lvl' := .low) hr).1 hk
    exact absurd hcode (by decide)
  · cases ht
    rw [transition_of_idle hp] at hpre ⊢
    split at hpre
    · exact absurd rfl hpre
    · next hno => rw [if_neg hno]; rfl

/-! ## WatchdogTimeout (R108) -/

/-- Settles O31: a timeout has no admissible observation to be, so it aborts in every phase but IDLE, and no other event's
abort has its code. -/
theorem watchdogTimeoutIsALocalReset : Obligations.WatchdogTimeoutIsALocalReset := by
  refine fun ts s hr => ⟨exec_wdog_aborts hr, exec_wdog_of_idle hr, fun i t he => ?_⟩
  obtain ⟨-, lvl, hl, rfl⟩ := exec_next.1 he
  rw [errorKind_watchdogTimeout_iff, transition_outcome_abortWdog_iff hr, ← Instr.level_eq_watchdog_iff, hl,
    Option.some.injEq]

/-! ## ChecksumMismatch (R109) -/

theorem frameWord_getLsbD_forty (f : Frame) : f.word.getLsbD 40 = f.valid := by
  rw [Frame.word, BitVec.getLsbD_append]
  simp

/-- What stands on the ports with a frame. -/
theorem transition_ports_of_frame {f : Frame} (hr : s.Ready) (hf : (s.transition lvl ts).frameOut = some f) :
    (f.valid = true ↔ f.SumMatches) ∧ (s.transition lvl ts).phase = .idle ∧ (s.transition lvl ts).bitCount = 40 ∧
      (s.transition lvl ts).outcomeOut = some .frame := by
  obtain ⟨-, -, b, -, -, e⟩ := transition_emits hr hf
  rw [e] at hf ⊢
  cases hf
  exact ⟨interp_valid_iff _, rfl, rfl, rfl⟩

/-- Settles O32: every emitted frame is an `Interp`, whose verdict is the comparison of the sum and is bit 40 of its word,
and its registers and outcome are those of the 40th bit. -/
theorem checksumMismatchOnlyClearsValid : Obligations.ChecksumMismatchOnlyClearsValid := by
  intro i s t he
  obtain ⟨hr, lvl, -, rfl⟩ := exec_next.1 he
  refine ⟨?_, fun f hf => ?_⟩
  · rw [errorKind_checksumMismatch_iff]
    constructor
    · rintro ⟨-, f, hf, hv⟩
      obtain ⟨hvalid, -⟩ := transition_ports_of_frame hr hf
      exact ⟨f, hf, by rw [← hvalid, hv]; exact Bool.false_ne_true⟩
    · rintro ⟨f, hf, hno⟩
      obtain ⟨hvalid, -, -, hoc⟩ := transition_ports_of_frame hr hf
      exact ⟨hoc, f, hf, Bool.eq_false_iff.2 (mt hvalid.1 hno)⟩
  · obtain ⟨hvalid, hregs⟩ := transition_ports_of_frame hr hf
    rw [frameWord_getLsbD_forty]
    exact ⟨fun hno => Bool.eq_false_iff.2 (mt hvalid.1 hno), hvalid.2, hregs⟩

/-! ## A trigger's two edges (R123, R133) -/

/-- The preamble band is the highest of R8's table and ends below 95. -/
theorem len_from_95_lies_in_no_band (hb : s.cfg.DefaultBands) (h : 95 ≤ s.len ts) :
    ¬ s.PreambleLen ts ∧ ¬ s.GapLen ts ∧ ∀ b, ¬ s.BitLen ts b := by
  rw [preambleLen_iff hb, gapLen_iff hb, Bool.forall_bool, bitLen_false_iff hb, bitLen_true_iff hb]
  omega

/-- The second edge of a trigger, long after the event before it, leaves IDLE and aborts what was in progress. -/
theorem exec_edge_late (hr : s.Ready) (hb : s.cfg.DefaultBands) (h : 95 ≤ s.len ts) (p : PinLevel) :
    exec (p.edge ts) s =
      .next (s.afterPhase p.toLevel ts .idle (if s.phase = .idle then .ignored else .abortProto)) := by
  obtain ⟨hpre, hgap, hbit⟩ := len_from_95_lies_in_no_band hb h
  rw [exec_edge_of_ready hr, transition_of_no_band hr hpre hgap hbit, abortCode_toLevel]

theorem transition_ready (hr : s.Ready) (h : s.CountBounded) : (s.transition lvl ts).Ready :=
  ⟨(transition_cfg hr).symm ▸ hr.1, (transition_countBounded hr h).1⟩

theorem afterRecord_frameOut_of_fortieth (h40 : s.bitCount.toNat + 1 = 40) (b : Bool) :
    (s.afterRecord lvl ts b).frameOut = some (interp (s.entered b)) := by
  rw [State.afterRecord, if_pos h40]
  rfl

theorem afterRecord_frameOut_of_not_fortieth (h40 : s.bitCount.toNat + 1 ≠ 40) (b : Bool) :
    (s.afterRecord lvl ts b).frameOut = none := by
  rw [State.afterRecord, if_neg h40]
  rfl

/-- Settles O57: the first edge is at the bit level, so IDLE ignores it and READING_BITS can record it; it leaves its own
tick in `last_timestamp`, so the second edge's duration lies beyond every band. -/
theorem triggerEdgesLeaveIdle : Obligations.TriggerEdgesLeaveIdle := by
  intro s t1 t2 hr hcount hb hstart hfar
  have hlow : s.cfg.bitLevel = .low := by rw [Config.bitLevel, hstart]; rfl
  generalize hu : s.transition PinLevel.low.toLevel t1 = u
  have hfirst : exec (.evLow t1) s = .next u := hu ▸ exec_edge_of_ready hr .low
  have hlen : u.len t2 = elapsed t1 t2 := by rw [State.len, ← hu, transition_lastTimestamp hr]
  have hbands : u.cfg.DefaultBands := by rwa [← hu, transition_cfg hr]
  have hready : u.Ready := hu ▸ transition_ready hr hcount
  refine ⟨u, _, hfirst, exec_edge_late hready hbands (by omega) .high, rfl, rfl, fun hp => ?_, fun hp => ?_,
    fun hp b hbit => ?_⟩
  · rw [← hu, ← hlow, transition_of_idle hp, if_neg fun h => bitLevel_not_isStart s h.1]
    exact ⟨rfl, rfl⟩
  · rw [if_neg hp]
    rfl
  · have hrec : u = s.afterRecord s.cfg.bitLevel.toLevel t1 b := by rw [← hu, ← hlow, transition_bit hr hp hbit]
    rw [hrec, afterRecord_bitCount, afterRecord_accumulator, bitCount_add_one hr.2,
      entered_toNat (accumulator_lt_of_countBounded hcount hp)]
    exact ⟨rfl, rfl, fun h39 => afterRecord_frameOut_of_fortieth (by omega) b,
      fun h39 => afterRecord_frameOut_of_not_fortieth (by omega) b⟩

end Machine

end Sys2Proof

/-! # Reset, the ticks of a frame, and the preamble after an abort (70_reset_and_hazards.md) -/

namespace Sys2Proof

/-! ## Words and events correspond (R51, R52) -/

theorem decode_encode (i : Instr) : decode (encode i) = i := by
  cases i <;> simp [encode, decode_eventWordOf]

theorem encode_decode (w : EventWord) : encode (decode w) = w := by
  conv_rhs => rw [← eventWordOf_fields w]
  rcases lvl_cases (lvlField w) with h | h | h | h
  · rw [decode_of_low h, encode, h]
  · rw [decode_of_high h, encode, h]
  · rw [decode_of_wdog h, encode, h]
  · rw [decode_of_reserved h, encode, h]

@[simp] theorem tsField_encode (i : Instr) : tsField (encode i) = i.ts := by
  rw [← decode_ts, decode_encode]

theorem encode_edge_inj {p q : PinLevel} {t u : Tick} (h : encode (p.edge t) = encode (q.edge u)) : p = q ∧ t = u :=
  PinLevel.edge_inj (by rw [← decode_encode (p.edge t), h, decode_encode])

theorem eq_encode_edge_of_level {w : EventWord} {p : PinLevel} (h : (decode w).level = some p.toLevel) :
    w = encode (p.edge (tsField w)) := by
  rw [← decode_ts, ← Instr.eq_edge_of_level h, encode_decode]

namespace Machine

variable {s : State} {c : Config} {lvl : Level} {p : PinLevel} {last last' ts : Tick} {n : Nat} {w : EventWord}
  {ws : List EventWord} {b : Bool} {bits : List Bool}

/-! ## The streams that complete a frame (R71 to R81)

What a stream whose last event emits has to be, by the phase it starts in. -/

/-- The stream carries the bits that a frame with `n` bits recorded still lacks, and no event after the last of them. -/
def CompletesBits (c : Config) (n : Nat) (last : Tick) (ws : List EventWord) : Prop :=
  ∃ bits last', CarriesBits c last ws bits last' ∧ n + bits.length = 40

/-- The stream is the second event of a preamble and the 40 bits after it. -/
def CompletesPreamble (c : Config) (last : Tick) (ws : List EventWord) : Prop :=
  ∃ ts rest, ws = encode (c.bitLevel.edge ts) :: rest ∧ c.preLoX < elapsed last ts ∧ elapsed last ts < c.preHiX ∧
    CompletesBits c 0 ts rest

/-- The stream is a whole frame: a preamble and the 40 bits after it. -/
def CompletesFrame (c : Config) (last : Tick) (ws : List EventWord) : Prop :=
  ∃ ts rest, ws = encode (c.startLevel.edge ts) :: rest ∧ c.preLoX < elapsed last ts ∧ elapsed last ts < c.preHiX ∧
    CompletesPreamble c ts rest

/-- The stream ends in a whole frame that does not begin with the stream's first event. -/
def EndsInLaterFrame (c : Config) (ws : List EventWord) : Prop :=
  ∃ pre rest last, pre ≠ [] ∧ ws = pre ++ rest ∧ CompletesFrame c last rest

/-- The stream completes the frame that the state has begun. -/
def State.CompletedBy (s : State) (ws : List EventWord) : Prop :=
  match s.phase with
  | .idle => CompletesFrame s.cfg s.lastTimestamp ws
  | .preambleStarted => CompletesPreamble s.cfg s.lastTimestamp ws
  | .readingBits => CompletesBits s.cfg s.bitCount.toNat s.lastTimestamp ws

theorem completedBy_of_idle (h : s.phase = .idle) :
    s.CompletedBy ws ↔ CompletesFrame s.cfg s.lastTimestamp ws := by rw [State.CompletedBy, h]

theorem completedBy_of_preamble (h : s.phase = .preambleStarted) :
    s.CompletedBy ws ↔ CompletesPreamble s.cfg s.lastTimestamp ws := by rw [State.CompletedBy, h]

theorem completedBy_of_reading (h : s.phase = .readingBits) :
    s.CompletedBy ws ↔ CompletesBits s.cfg s.bitCount.toNat s.lastTimestamp ws := by rw [State.CompletedBy, h]

theorem completesBits_forty (c : Config) (last : Tick) : CompletesBits c 40 last [] := ⟨[], last, .done last, rfl⟩

theorem CompletesBits.gap (hn : n < 40) (band : c.gapLo ≤ elapsed last ts ∧ elapsed last ts ≤ c.gapHi)
    (h : CompletesBits c n ts ws) : CompletesBits c n last (encode (c.startLevel.edge ts) :: ws) := by
  obtain ⟨bits, last', hbits, hlen⟩ := h
  cases bits with
  | nil => exact absurd hlen hn.ne
  | cons b bs => exact ⟨_, _, .gap _ _ _ _ _ _ band hbits, hlen⟩

theorem CompletesBits.bit (band : if b = true then c.oneLo ≤ elapsed last ts ∧ elapsed last ts ≤ c.oneHi
      else c.zeroLo ≤ elapsed last ts ∧ elapsed last ts ≤ c.zeroHi)
    (h : CompletesBits c (n + 1) ts ws) : CompletesBits c n last (encode (c.bitLevel.edge ts) :: ws) := by
  obtain ⟨bits, last', hbits, hlen⟩ := h
  exact ⟨_, _, .bit _ _ _ _ b _ band hbits, by rw [List.length_cons]; omega⟩

theorem EndsInLaterFrame.cons (w : EventWord) (h : EndsInLaterFrame c ws) : EndsInLaterFrame c (w :: ws) := by
  obtain ⟨pre, rest, last, -, rfl, hframe⟩ := h
  exact ⟨w :: pre, rest, last, List.cons_ne_nil _ _, rfl, hframe⟩

theorem CompletesFrame.endsInLaterFrame_cons (w : EventWord) (h : CompletesFrame c last ws) :
    EndsInLaterFrame c (w :: ws) :=
  ⟨[w], ws, last, List.cons_ne_nil _ _, rfl, h⟩

/-! ## An emission in a run's last step -/

/-- A legal event either takes the frame in progress one event further, or leaves IDLE, where a frame begins anew. -/
theorem completedBy_cons (hr : s.Ready) (hc : s.CountBounded) (hl : (decode w).level = some lvl)
    (h : (s.transition lvl (tsField w)).CompletedBy ws) :
    s.CompletedBy (w :: ws) ∨ CompletesFrame s.cfg (tsField w) ws := by
  have hword {p : PinLevel} (hlvl : lvl = p.toLevel) : w :: ws = encode (p.edge (tsField w)) :: ws :=
    congrArg (· :: ws) (eq_encode_edge_of_level (hlvl ▸ hl))
  rcases transition_cases hr lvl (tsField w) with ⟨hp, hs, hlen, e⟩ | ⟨-, -, e⟩ | ⟨hp, hb, hlen, e⟩ | ⟨-, -, e⟩ |
    ⟨hp, hs, hlen, e⟩ | ⟨hp, -, b, hb, hlen, e⟩ | ⟨-, -, b, -, -, e⟩ | ⟨-, -, -, e⟩ <;> rw [e] at h
  · exact .inl ((completedBy_of_idle hp).2 ⟨_, _, hword (Config.isStart_iff.1 hs), hlen.1, hlen.2, h⟩)
  · exact .inr h
  · exact .inl ((completedBy_of_preamble hp).2 ⟨_, _, hword (Config.isBit_iff.1 hb), hlen.1, hlen.2, h⟩)
  · exact .inr h
  · have hn : s.bitCount.toNat < 40 := Nat.lt_succ_of_le (hc.2 hp).1
    rw [completedBy_of_reading hp, hword (Config.isStart_iff.1 hs)]
    exact .inl (.gap hn hlen h)
  · rw [completedBy_of_reading rfl, afterBit_bitCount_toNat hr.2] at h
    rw [completedBy_of_reading hp, hword (Config.isBit_iff.1 hb)]
    exact .inl (.bit hlen h)
  · exact .inr h
  · exact .inr h

/-- An emitting event is all that the frame in progress lacked. -/
theorem completedBy_of_emits {f : Frame} (hr : s.Ready) (hl : (decode w).level = some lvl)
    (hf : (s.transition lvl (tsField w)).frameOut = some f) : s.CompletedBy [w] := by
  obtain ⟨hp, hn, b, hb, hlen, -⟩ := transition_emits hr hf
  rw [Config.isBit_iff.1 hb] at hl
  rw [completedBy_of_reading hp, hn, eq_encode_edge_of_level hl]
  exact .bit hlen (completesBits_forty _ _)

/-- A stream whose last step emits completes the frame in progress, or ends in a whole one. -/
theorem completedBy_of_emits_last {i : Nat} {f : Frame} (ws : List EventWord) :
    ∀ (k : Nat) (s : State), s.CountBounded → (i, f) ∈ (runFrom k s ws).frames → i + 1 = k + ws.length →
      s.CompletedBy ws ∨ EndsInLaterFrame s.cfg ws := by
  induction ws with
  | nil => exact fun _ _ _ h _ => nomatch h
  | cons w ws ih =>
    intro k s hc h hi
    cases hst : step (s.present w) with
    | fault r => cases r
    | refused r =>
      rw [runFrom_cons_refused hst] at h
      cases h
    | next t =>
      rw [runFrom_cons_next hst, List.mem_append] at h
      obtain ⟨hr, lvl, hl, rfl⟩ := exec_next.1 ((step_present w).symm.trans hst)
      rw [decode_ts] at h
      rw [List.length_cons] at hi
      obtain hnow | hlater := h
      · obtain ⟨f', hf, he⟩ := List.mem_map.1 hnow
        obtain ⟨rfl, rfl⟩ := Prod.mk.inj he
        obtain rfl : ws = [] := List.length_eq_zero_iff.1 (by omega)
        exact .inl (completedBy_of_emits (s := s.setInputs []) hr hl (Option.mem_toList.1 hf))
      · obtain hcomp | hend := ih (k + 1) _ (transition_countBounded (s := s.setInputs []) hr hc) hlater (by omega)
        · exact (completedBy_cons (s := s.setInputs []) hr hc hl hcomp).imp_right (·.endsInLaterFrame_cons w)
        · rw [transition_cfg hr] at hend
          exact .inr (hend.cons w)

/-! ## The ticks of a frame (R138) -/

theorem totalLen_encode_cons (last : Tick) (i : Instr) (ws : List EventWord) :
    totalLen last (encode i :: ws) = elapsed last i.ts + totalLen i.ts ws := by
  rw [totalLen, tsField_encode]

theorem length_le_of_carriesBits (h : CarriesBits c last ws bits last') : bits.length ≤ ws.length := by
  induction h with
  | done => exact le_rfl
  | gap _ _ _ _ _ _ _ _ ih => exact Nat.le_succ_of_le ih
  | bit _ _ _ _ _ _ _ _ ih => exact Nat.succ_le_succ ih

/-- A bit takes at least the 15 ticks of the shortest 0, whatever gaps stand between the bits. -/
theorem le_totalLen_of_carriesBits (hb : c.DefaultBands) (h : CarriesBits c last ws bits last') :
    15 * bits.length ≤ totalLen last ws := by
  obtain ⟨-, -, -, -, hzero, -, hone, -⟩ := hb
  induction h with
  | done => exact le_rfl
  | gap _ _ _ _ _ _ _ _ ih =>
    rw [totalLen_encode_cons, PinLevel.edge_ts]
    omega
  | bit _ _ _ _ b _ band _ ih =>
    rw [totalLen_encode_cons, PinLevel.edge_ts, List.length_cons]
    split at band <;> omega

/-- R138's lower bound: two preamble events of at least 71 ticks and 40 bits of at least 15. -/
theorem CompletesFrame.le_length_and_totalLen (hb : c.DefaultBands) (h : CompletesFrame c last ws) :
    42 ≤ ws.length ∧ 742 ≤ totalLen last ws := by
  obtain ⟨t1, _, rfl, hlo1, -, t2, rest, rfl, hlo2, -, bits, last', hbits, hlen⟩ := h
  have hcount := length_le_of_carriesBits hbits
  have hticks := le_totalLen_of_carriesBits hb hbits
  obtain ⟨hpre, -⟩ := hb
  simp only [List.length_cons, totalLen_encode_cons, PinLevel.edge_ts]
  omega

theorem alternates_encode_cons {q : PinLevel} (h : Alternates p (encode (q.edge ts) :: ws)) :
    q = p ∧ Alternates q.opposite ws := by
  obtain ⟨⟨u, hu⟩, hrest⟩ := h
  obtain ⟨rfl, -⟩ := encode_edge_inj hu
  exact ⟨rfl, hrest⟩

theorem alternates_of_append {pre rest : List EventWord} (h : Alternates p (pre ++ rest)) : ∃ q, Alternates q rest := by
  induction pre generalizing p with
  | nil => exact ⟨p, h⟩
  | cons w pre ih => exact ih h.2

/-- In an alternating stream from the start level, the first bit has exactly one gap before it. -/
theorem carriesBits_cons_of_alternates (h : CarriesBits c last ws (b :: bits) last')
    (ha : Alternates c.startLevel ws) :
    ∃ t1 t2 rest, ws = encode (c.startLevel.edge t1) :: encode (c.bitLevel.edge t2) :: rest ∧
      elapsed last t1 ≤ c.gapHi ∧ (elapsed t1 t2 ≤ c.oneHi ∨ elapsed t1 t2 ≤ c.zeroHi) ∧
      CarriesBits c t2 rest bits last' ∧ Alternates c.startLevel rest := by
  cases h with
  | bit => exact absurd (alternates_encode_cons ha).1 c.bitLevel_ne_startLevel
  | gap _ t1 _ _ _ _ hgap hbits =>
    obtain ⟨-, ha⟩ := alternates_encode_cons ha
    cases hbits with
    | gap => exact absurd (alternates_encode_cons ha).1 c.startLevel_ne_bitLevel
    | bit _ t2 _ rest _ _ band hrest =>
      obtain ⟨-, ha⟩ := alternates_encode_cons ha
      rw [Config.bitLevel, PinLevel.opposite_opposite] at ha
      refine ⟨t1, t2, rest, rfl, hgap.2, ?_, hrest, ha⟩
      split at band
      · exact .inl band.2
      · exact .inr band.2

/-- Alternating, a bit is two events: a gap of at most 65 ticks and a bit event of at most 80. -/
theorem length_and_totalLen_le_of_alternates (hb : c.DefaultBands) (bits : List Bool) :
    ∀ {last : Tick} {ws : List EventWord}, CarriesBits c last ws bits last' → Alternates c.startLevel ws →
      ws.length = 2 * bits.length ∧ totalLen last ws ≤ 145 * bits.length := by
  obtain ⟨-, -, -, hgap, -, hzero, -, hone⟩ := hb
  induction bits with
  | nil =>
    intro last ws h _
    cases h
    exact ⟨rfl, le_rfl⟩
  | cons b bits ih =>
    intro last ws h ha
    obtain ⟨t1, t2, rest, rfl, hg, hbit, hrest, ha⟩ := carriesBits_cons_of_alternates h ha
    obtain ⟨hlen, hticks⟩ := ih hrest ha
    simp only [List.length_cons, totalLen_encode_cons, PinLevel.edge_ts]
    omega

/-- R138's upper bound: two preamble events of at most 94 ticks, and 40 gaps and bits. -/
theorem CompletesFrame.length_and_totalLen_le (hb : c.DefaultBands) (h : CompletesFrame c last ws)
    (ha : Alternates p ws) : ws.length = 82 ∧ totalLen last ws ≤ 5988 := by
  obtain ⟨t1, _, rfl, -, hhi1, t2, rest, rfl, -, hhi2, bits, last', hbits, hlen⟩ := h
  have ha := (alternates_encode_cons (alternates_encode_cons ha).2).2
  rw [Config.bitLevel, PinLevel.opposite_opposite] at ha
  obtain ⟨hcount, hticks⟩ := length_and_totalLen_le_of_alternates hb bits hbits ha
  obtain ⟨-, hpre, -⟩ := hb
  simp only [List.length_cons, totalLen_encode_cons, PinLevel.edge_ts]
  omega

/-- Where every whole frame is at least as long as the stream, an emission in the last step completes a frame that began
with the first event. -/
theorem completesFrame_of_emits_last {k i : Nat} {f : Frame} (hr : s.Ready) (hp : s.phase = .idle)
    (hf : (i, f) ∈ (runFrom k s ws).frames) (hi : i + 1 = k + ws.length)
    (hlong : ∀ pre rest last, ws = pre ++ rest → CompletesFrame s.cfg last rest → ws.length ≤ rest.length) :
    CompletesFrame s.cfg s.lastTimestamp ws := by
  have hc : s.CountBounded := countBounded_of_not_reading (by simp [hp]) hr.2
  obtain h | ⟨pre, rest, last, hne, rfl, hframe⟩ := completedBy_of_emits_last ws k s hc hf hi
  · exact (completedBy_of_idle hp).1 h
  · have hshort := hlong pre rest last rfl hframe
    have hpre := List.length_pos_iff.2 hne
    rw [List.length_append] at hshort
    omega

/-- Settles O52: such a stream is one whole frame, for a frame that begins later would be too short; alternating, its
events are two per bit and each has its longest duration, and in general each bit has its shortest. -/
theorem frameDurationBounds : Obligations.FrameDurationBounds := by
  refine ⟨fun k s ws f hr hb hp hlen ha hf => ?_, fun k s ts ws f hr hb hp hlen _ hf => ?_⟩
  · refine (CompletesFrame.length_and_totalLen_le hb (completesFrame_of_emits_last hr hp hf (by omega) ?_) ha).2
    rintro pre rest last rfl hframe
    obtain ⟨q, hq⟩ := alternates_of_append ha
    rw [hlen, (hframe.length_and_totalLen_le hb hq).1]
  · have hlen' : (encode (s.cfg.startLevel.edge ts) :: ws).length = 42 := by rw [List.length_cons, hlen]
    refine ((completesFrame_of_emits_last hr hp hf (by omega) ?_).le_length_and_totalLen hb).2
    intro pre rest last _ hframe
    rw [hlen']
    exact (hframe.le_length_and_totalLen hb).1

/-! ## The first event after reset (R128) -/

@[simp] theorem elapsed_zero (ts : Tick) : elapsed 0 ts = ts.toNat := by
  rw [elapsed]
  exact (Nat.add_mod_right ts.toNat (2 ^ 32)).trans (Nat.mod_eq_of_lt ts.isLt)

/-- An event of the start level is the start level's edge. -/
theorem isStart_iff_eq_edge {i : Instr} (hl : i.level = some lvl) :
    c.isStart lvl = true ↔ i = c.startLevel.edge i.ts := by
  rw [Config.isStart_iff]
  refine ⟨fun h => Instr.eq_edge_of_level (h ▸ hl), fun h => ?_⟩
  rw [h, PinLevel.edge_level] at hl
  exact (Option.some.inj hl).symm

/-- Settles O54: reset leaves IDLE and the tick 0, so the first event's duration is its timestamp, and IDLE compares only
a start-level edge with the preamble band. -/
theorem firstEventAfterReset : Obligations.FirstEventAfterReset := by
  intro c i hw hb hzero hwf
  obtain ⟨lvl, hl⟩ := Instr.level_of_wf hwf
  have hr : (State.resetWith c).Ready := ⟨hw, Nat.zero_le 40⟩
  have hlen : (State.resetWith c).PreambleLen i.ts ↔ 71 ≤ i.ts.toNat ∧ i.ts.toNat ≤ 94 := by
    rw [preambleLen_iff hb, State.len, State.resetWith_lastTimestamp, hzero, elapsed_zero]
    omega
  have hstart : ((State.resetWith c).cfg.isStart lvl = true ∧ (State.resetWith c).PreambleLen i.ts) ↔
      ∃ ts, i = c.startLevel.edge ts ∧ 71 ≤ ts.toNat ∧ ts.toNat ≤ 94 := by
    rw [State.resetWith_cfg, isStart_iff_eq_edge hl, hlen]
    refine ⟨fun h => ⟨i.ts, h⟩, ?_⟩
    rintro ⟨ts, rfl, hband⟩
    rw [PinLevel.edge_ts]
    exact ⟨rfl, hband⟩
  refine ⟨(State.resetWith c).transition lvl i.ts, ?_, fun h => ?_, fun h => ?_⟩
  · rw [step_present, decode_encode]
    exact exec_next.2 ⟨hr, lvl, hl, rfl⟩
  · rw [transition_of_idle rfl, if_pos (hstart.2 h)]
    exact ⟨rfl, rfl⟩
  · rw [transition_of_idle rfl, if_neg fun h' => h (hstart.1 h')]
    exact ⟨rfl, rfl⟩

/-! ## The preamble after an abort (R140(e)) -/

/-- An abort changes no register but `last_timestamp` and leaves IDLE. -/
theorem transition_of_abort_outcome (hr : s.Ready)
    (h : (s.transition lvl ts).outcomeOut = some .abortProto ∨ (s.transition lvl ts).outcomeOut = some .abortWdog) :
    s.transition lvl ts = s.afterPhase lvl ts .idle (abortCode lvl) := by
  have hno : ¬ (s.phase = .idle ∨ s.AdmitsLevel lvl ts) := fun hadm =>
    have ⟨hproto, hwdog⟩ := transition_of_admitted hr hadm
    h.elim hproto hwdog
  obtain ⟨hp, hadm⟩ := not_or.1 hno
  exact transition_of_not_admitted hr hp hadm

/-- Settles O56: an abort leaves IDLE and keeps the counter's bound, and neither IDLE nor PREAMBLE_STARTED reads the
accumulator or the counter. -/
theorem preambleIsRecognisedAfterAnAbort : Obligations.PreambleIsRecognisedAfterAnAbort := by
  intro i s u t1 t2 _ he habort hlen1
  obtain ⟨hr, lvl, -, rfl⟩ := exec_next.1 he
  rw [transition_of_abort_outcome hr habort] at hlen1 ⊢
  generalize hu : s.afterPhase lvl i.ts .idle (abortCode lvl) = u at hlen1 ⊢
  have hidle : u.phase = .idle := by rw [← hu]; rfl
  have hready : u.Ready := by rw [← hu]; exact hr
  refine ⟨_, (exec_startEdge_of_idle hready hidle).trans (congrArg _ (if_pos hlen1)), rfl, fun hlen2 => ?_⟩
  exact (exec_bitEdge_of_preamble (s := u.afterPhase u.cfg.startLevel.toLevel t1 .preambleStarted .preStart) hready
    rfl).trans (congrArg _ (if_pos hlen2))

end Machine

end Sys2Proof

/-! # Event words, ports and refusals (30_encoding.md) -/

namespace Sys2Proof

variable {w : EventWord} {i : Instr} {l : BitVec 2} {n : Nat}

/-! ## The event word (R51, R52, R56) -/

/-- Settles O1: each direction rests on a word being its two fields. -/
theorem decodeAndEncodeAgree : Obligations.DecodeAndEncodeAgree := ⟨decode_encode, encode_decode⟩

/-- Settles O2: the decoder evaluated on the five words. -/
theorem writtenWordsDecode : Obligations.WrittenWordsDecode := by
  unfold Obligations.WrittenWordsDecode
  decide

theorem decode_eq_iff : decode w = i ↔ w = encode i :=
  ⟨fun h => by rw [← h, encode_decode], fun h => by rw [h, decode_encode]⟩

/-- A row's mask and pattern pick out the words of one event, the row's level code and the word's own low 32 bits. -/
theorem mask_match_iff_decode (h : encode i = eventWordOf l (BitVec.ofNat 32 w.toNat)) :
    w &&& 0x300000000#34 = eventWordOf l 0#32 ↔ decode w = i := by
  rw [mask_match_iff, decode_eq_iff, h, ← tsField_eq_ofNat]
  refine ⟨fun hl => ?_, fun hw => ?_⟩
  · rw [← hl, eventWordOf_fields]
  · rw [hw, lvlField_eventWordOf]

/-- Settles O3: the four rows differ in the level code alone. -/
theorem opcodeRowsDecide : Obligations.OpcodeRowsDecide := fun _ =>
  ⟨mask_match_iff_decode (l := 0b00#2) rfl, mask_match_iff_decode (l := 0b01#2) rfl,
    mask_match_iff_decode (l := 0b10#2) rfl, mask_match_iff_decode (l := 0b11#2) rfl⟩

/-! ## Numbers (R58) -/

theorem decodeNat_of_lt (h : n < 2 ^ 34) : decodeNat n = .ok (decode (BitVec.ofNat 34 n)) := by
  rw [decodeNat, eventWordOfNat, if_pos h]
  rfl

theorem decodeNat_of_le (h : 2 ^ 34 ≤ n) : decodeNat n = .error .widerThanAnEventWord := by
  rw [decodeNat, eventWordOfNat, if_neg (Nat.not_lt.2 h)]
  rfl

/-- Settles O4: a number below `2^34` is the number of a word, which is the word of the event it decodes to. -/
theorem numbersDecodeOrAreRejected : Obligations.NumbersDecodeOrAreRejected := by
  refine fun n => ⟨decodeNat_of_le, fun h => ⟨_, decodeNat_of_lt h, ?_⟩⟩
  rw [encode_decode, BitVec.toNat_ofNat, Nat.mod_eq_of_lt h]

namespace Machine

variable {s t : State} {lvl : Level} {ts : Tick} {p : PortInput} {rest : List PortInput}

/-! ## The ports' words (R60 to R62) -/

theorem frameWord_toNat (f : Frame) :
    f.word.toNat = 2 ^ 40 * f.valid.toNat + 2 ^ 32 * f.humidityHigh.toNat + 2 ^ 24 * f.humidityLow.toNat +
      2 ^ 16 * f.temperatureHigh.toNat + 2 ^ 8 * f.temperatureLow.toNat + f.checksum.toNat := by
  simp only [Frame.word, append_toNat, BitVec.toNat_ofBool]
  omega

theorem traceWord_toNat (r : TraceRecord) :
    r.word.toNat = 2 ^ 44 * r.level.code.toNat + 2 ^ 12 * r.len.toNat + 2 ^ 10 * r.phase.code.toNat +
      2 ^ 4 * r.bitCount.toNat + r.outcome.code.toNat := by
  simp only [TraceRecord.word, append_toNat]
  omega

/-- The level that a word's event carries stands in the word's field `LVL`. -/
theorem lvlField_of_level (h : (decode w).level = some lvl) : lvlField w = lvl.code := by
  rcases lvl_cases (lvlField w) with hl | hl | hl | hl
  · rw [decode_of_low hl] at h; cases h; exact hl
  · rw [decode_of_high hl] at h; cases h; exact hl
  · rw [decode_of_wdog hl] at h; cases h; exact hl
  · rw [decode_of_reserved hl] at h; cases h

theorem Phase.code_inj {p q : Phase} : p.code = q.code ↔ p = q := by
  cases p <;> cases q <;> decide

/-- Settles O36: fields side by side have their place values, and no two phases share a code. -/
theorem portWordsHoldTheirFields : Obligations.PortWordsHoldTheirFields := by
  refine ⟨frameWord_toNat, traceWord_toNat, ⟨rfl, rfl, rfl, fun w l h => ?_⟩, fun s => ⟨rfl, ?_, ?_, ?_⟩⟩
  · rw [← lvlField_of_level h, lvlField_toNat]
  · exact Phase.code_inj (q := .idle)
  · exact Phase.code_inj (q := .preambleStarted)
  · exact Phase.code_inj (q := .readingBits)

/-! ## What a step presents to the block (R59, R94, R125, R126) -/

/-- Settles O5: the step takes the presentation off the stream and runs its event. -/
theorem stepRunsTheDecodedEvent : Obligations.StepRunsTheDecodedEvent := by
  intro s p rest i hi hrst hv hdec
  rw [step_of_cons hi, stepInput_event hrst hv, hdec]
  rfl

theorem stepInput_reset (h : p.rst = true) : stepInput p s = s.applyReset := by simp [stepInput, h]

/-- Settles O7: `rst` is asked for first, so `ev_valid` plays no part. -/
theorem resetInputWins : Obligations.ResetInputWins := by
  intro s p rest hw hi hrst
  rw [step_of_cons hi, stepInput_reset hrst]
  exact applyReset_next.2 ⟨hw, rfl⟩

/-- Settles O6: the reset values are read off, and the default configuration is checked against R9. -/
theorem resetLeavesTheResetValues : Obligations.ResetLeavesTheResetValues :=
  ⟨fun _ => ⟨rfl, rfl, rfl, rfl, rfl⟩, rfl, rfl, rfl, by decide, rfl, rfl, rfl, rfl, by decide⟩

/-- A stream without events and resets, the empty one among them: the ports are cleared, and what is presented is
consumed. -/
theorem step_quiet (hw : s.cfg.WellFormed) (hq : ∀ p ∈ s.inputs, p.rst = false ∧ p.evValid = false) :
    step s = .next (s.setInputs s.inputs.tail).clearOutputs := by
  rcases hi : s.inputs with _ | ⟨p, rest⟩
  · rw [step_of_empty hi, noStep_next]
    exact ⟨hw, by rw [List.tail_nil, ← hi]; rfl⟩
  · obtain ⟨hrst, hv⟩ := hq p (by simp [hi])
    exact step_noEvent hw hi hrst hv

/-- Any number of steps on such a stream, past its end too. -/
theorem core_run_quiet (n : Nat) : ∀ s : State, s.cfg.WellFormed →
    (∀ p ∈ s.inputs, p.rst = false ∧ p.evValid = false) →
    core.run n s.clearOutputs = .next (s.setInputs (s.inputs.drop n)).clearOutputs := by
  induction n with
  | zero => exact fun _ _ _ => rfl
  | succ n ih =>
    intro s hw hq
    have hrest := ih (s.setInputs s.inputs.tail) hw fun p hp => hq p (List.mem_of_mem_tail hp)
    rw [core_run_succ_next (step_quiet (s := s.clearOutputs) hw hq), ← List.drop_tail]
    exact hrest

/-- Settles O60: an empty stream presents no event, so one step clears the ports and so do any number, by induction. -/
theorem emptyStreamIsNoStep : Obligations.EmptyStreamIsNoStep := by
  refine ⟨fun s hw hi => ?_, fun n s hw hq hn => ?_⟩
  · rw [step_of_empty hi]
    exact noStep_next.2 ⟨hw, rfl⟩
  · cases n with
    | zero => exact ⟨s, rfl, ⟨rfl, rfl, rfl, rfl⟩, rfl, List.length_eq_zero_iff.1 (Nat.le_zero.1 hn), nofun⟩
    | succ n =>
      have hrest := core_run_quiet n (s.setInputs s.inputs.tail) hw fun p hp => hq p (List.mem_of_mem_tail hp)
      refine ⟨_, (core_run_succ_next (step_quiet hw hq) n).trans hrest, ⟨rfl, rfl, rfl, rfl⟩, rfl, ?_,
        fun _ => ⟨rfl, rfl⟩⟩
      exact List.drop_tail.trans (List.drop_eq_nil_of_le hn)

/-! ## Where a legal event has no meaning (R9, R24) -/

/-- A legal event is the processing of its level at its timestamp. -/
theorem exec_of_level {i : Instr} (h : i.level = some lvl) : exec i s = s.processEvent lvl i.ts := by
  cases i <;> cases h <;> rfl

theorem whenConfigured_of_malformed (h : ¬ s.cfg.WellFormed) (k : Host.Outcome State Fault Refusal) :
    s.whenConfigured k = .refused .malformedConfig := if_neg h

/-- Settles O24: a legal event meets the check of the configuration first, and every step that answers passed it. -/
theorem malformedConfigurationIsRefused : Obligations.MalformedConfigurationIsRefused := by
  refine fun s hw => ⟨fun i hwf => ?_, fun t hst => hw (step_next_cases hst).1⟩
  obtain ⟨lvl, hl⟩ := Instr.level_of_wf hwf
  rw [exec_of_level hl, State.processEvent, whenConfigured_of_malformed hw]

/-- Settles O25: under a well-formed configuration the counter's check decides. -/
theorem countAboveFortyIsRefused : Obligations.CountAboveFortyIsRefused := by
  intro i s hwf hw hn
  obtain ⟨lvl, hl⟩ := Instr.level_of_wf hwf
  rw [exec_of_level hl, State.processEvent, if_neg (Nat.not_le.2 hn), State.whenConfigured, if_pos hw]

end Machine

end Sys2Proof

/-! # What every event leaves, the invariant, and what is not read (10_state.md, 60_exceptions.md) -/

namespace Sys2Proof

theorem PinLevel.opposite_inj {p q : PinLevel} : p.opposite = q.opposite ↔ p = q := by
  cases p <;> cases q <;> decide

namespace Machine

variable {s s' t : State} {lvl lvl' : Level} {ts : Tick}

/-! ## The invariant (R31 to R33) -/

/-- Cleared ports agree with any registers. -/
theorem portsAgree_of_cleared (hf : s.frameOut = none) (ho : s.outcomeOut = none) (ht : s.traceOut = none) :
    s.PortsAgree := by
  simp [State.PortsAgree, hf, ho, ht]

/-- The one record that an event can leave on the trace port (R88). -/
theorem after_traceOut_eq_some_iff {p : Phase} {a : Accumulator} {n : BitCount} {oc : OutcomeCode} {f : Option Frame}
    {r : TraceRecord} :
    (s.after lvl ts p a n oc f).traceOut = some r ↔
      s.cfg.traceEn = true ∧ r = ⟨lvl, BitVec.ofNat 32 (s.len ts), p, n, oc⟩ := by
  rw [State.after]
  cases s.cfg.traceEn <;> simp [eq_comm]

/-- The trace record agrees by itself; a frame has to be an emission's. -/
theorem after_portsAgree {p : Phase} {a : Accumulator} {n : BitCount} {oc : OutcomeCode} {f : Option Frame}
    (hf : ∀ g, f = some g → g = interp a ∧ p = .idle ∧ n = 40 ∧ oc = .frame) (ho : oc = .frame → ∃ g, f = some g) :
    (s.after lvl ts p a n oc f).PortsAgree := by
  refine ⟨fun g hg => ?_, fun h => ho (Option.some.inj h), fun r hr => ?_, fun hen oc' hoc => ?_⟩
  · obtain ⟨hacc, hp, hn, hoc⟩ := hf g hg
    exact ⟨hacc, hp, hn, congrArg some hoc⟩
  · obtain ⟨hen, rfl⟩ := after_traceOut_eq_some_iff.1 hr
    exact ⟨hen, rfl, rfl, rfl⟩
  · exact ⟨_, after_traceOut_eq_some_iff.2 ⟨hen, rfl⟩⟩

theorem afterPhase_portsAgree {p : Phase} {oc : OutcomeCode} (h : oc ≠ .frame) :
    (s.afterPhase lvl ts p oc).PortsAgree :=
  after_portsAgree nofun fun ho => absurd ho h

theorem abortCode_ne_frame (lvl : Level) : abortCode lvl ≠ .frame := by cases lvl <;> decide

/-- Every transition writes its own ports, so they agree whatever stood there before. -/
theorem transition_portsAgree (hr : s.Ready) : (s.transition lvl ts).PortsAgree := by
  rcases transition_cases hr lvl ts with ⟨-, -, -, e⟩ | ⟨-, -, e⟩ | ⟨-, -, -, e⟩ | ⟨-, -, e⟩ | ⟨-, -, -, e⟩ |
    ⟨-, -, b, -, -, e⟩ | ⟨-, -, b, -, -, e⟩ | ⟨-, -, -, e⟩ <;> rw [e]
  · exact afterPhase_portsAgree OutcomeCode.noConfusion
  · exact afterPhase_portsAgree OutcomeCode.noConfusion
  · exact after_portsAgree nofun nofun
  · exact afterPhase_portsAgree (abortCode_ne_frame lvl)
  · exact afterPhase_portsAgree OutcomeCode.noConfusion
  · cases b <;> exact after_portsAgree nofun nofun
  · refine after_portsAgree (fun g hg => ?_) fun _ => ⟨_, rfl⟩
    cases hg
    exact ⟨rfl, rfl, rfl, rfl⟩
  · exact afterPhase_portsAgree (abortCode_ne_frame lvl)

theorem transition_inv (hr : s.Ready) (h : s.Inv) : (s.transition lvl ts).Inv :=
  ⟨transition_countBounded hr h.1, transition_portsAgree hr⟩

theorem step_portsAgree (h : step s = .next t) : t.PortsAgree := by
  obtain ⟨-, ⟨-, rfl⟩ | ⟨p, rest, -, ⟨-, rfl⟩ | ⟨-, -, he⟩ | ⟨-, -, rfl⟩⟩⟩ := step_next_cases h
  · exact portsAgree_of_cleared rfl rfl rfl
  · exact portsAgree_of_cleared rfl rfl rfl
  · obtain ⟨hr, lvl, -, rfl⟩ := exec_next.1 he
    exact transition_portsAgree hr
  · exact portsAgree_of_cleared rfl rfl rfl

theorem resetWith_inv (c : Config) : (State.resetWith c).Inv :=
  ⟨resetWith_countBounded c, portsAgree_of_cleared rfl rfl rfl⟩

/-- Settles O44: reset counts nothing and clears the ports. -/
theorem resetMeetsTheInvariant : Obligations.ResetMeetsTheInvariant := resetWith_inv

/-- Settles O45: the bounds of the counter are kept, and the ports' agreement holds after every step. -/
theorem everyStepKeepsTheInvariant : Obligations.EveryStepKeepsTheInvariant :=
  fun _ _ h hst => ⟨step_countBounded h.1 hst, step_portsAgree hst⟩

/-- Settles O47: the second half of `CountBounded`, which reset meets and every step keeps. -/
theorem readingBitsBoundsTheAccumulator : Obligations.ReadingBitsBoundsTheAccumulator :=
  fun _ _ h => (reachable_countBounded h).2

/-! ## Outcome codes (R106) -/

theorem entered_getLsbD_zero (s : State) (b : Bool) : (s.entered b).getLsbD 0 = b := by
  rw [← shiftIn_eq_entered, shiftIn_getLsbD_zero]

theorem OutcomeCode.code_toNat_le (oc : OutcomeCode) : oc.code.toNat ≤ 8 := by cases oc <;> decide

/-- Which events abort with which outcome: an edge breaks the protocol, a timeout is the watchdog's. -/
theorem abortCode_eq_of_level {i : Instr} {oc : OutcomeCode} (hl : i.level = some lvl) (h : abortCode lvl = oc) :
    (oc = .abortProto ∧ ∃ p ts, i = PinLevel.edge p ts) ∨ (oc = .abortWdog ∧ ∃ ts, i = .evWdog ts) := by
  cases lvl with
  | low => exact .inl ⟨h.symm, _, _, Instr.eq_edge_of_level (p := .low) hl⟩
  | high => exact .inl ⟨h.symm, _, _, Instr.eq_edge_of_level (p := .high) hl⟩
  | watchdogTimeout => exact .inr ⟨h.symm, Instr.level_eq_watchdog_iff.1 hl⟩

/-- Settles O29: each case of the transition has one outcome, an abort's by whether the event is an edge or a
timeout. -/
theorem outcomeCodeNamesTheTransition : Obligations.OutcomeCodeNamesTheTransition := by
  intro i s t oc he hoc
  refine ⟨oc.code_toNat_le, ?_⟩
  obtain ⟨hr, lvl, hl, rfl⟩ := exec_next.1 he
  have hcount (b : Bool) := afterBit_bitCount_toNat (lvl := lvl) (ts := i.ts) (b := b) hr.2
  rcases transition_cases hr lvl i.ts with ⟨hp, -, -, e⟩ | ⟨hp, -, e⟩ | ⟨hp, -, -, e⟩ | ⟨hp, -, e⟩ | ⟨hp, -, -, e⟩ |
    ⟨hp, -, b, -, -, e⟩ | ⟨hp, -, b, -, -, e⟩ | ⟨hp, -, -, e⟩ <;> rw [e] at hoc ⊢
  · cases hoc
    exact ⟨rfl, hp, rfl⟩
  · cases hoc
    exact ⟨rfl, hp, rfl⟩
  · cases hoc
    exact ⟨rfl, hp, rfl⟩
  · obtain ⟨rfl, hi⟩ | ⟨rfl, hi⟩ := abortCode_eq_of_level hl (Option.some.inj hoc)
    · exact ⟨rfl, by simp [hp], rfl, hi⟩
    · exact ⟨rfl, by simp [hp], rfl, hi⟩
  · cases hoc
    exact ⟨rfl, hp, rfl, rfl⟩
  · cases b <;> cases hoc <;> exact ⟨rfl, hp, rfl, hcount _, entered_getLsbD_zero s _⟩
  · cases hoc
    exact ⟨rfl, hp, rfl, rfl, rfl⟩
  · obtain ⟨rfl, hi⟩ | ⟨rfl, hi⟩ := abortCode_eq_of_level hl (Option.some.inj hoc)
    · exact ⟨rfl, by simp [hp], rfl, hi⟩
    · exact ⟨rfl, by simp [hp], rfl, hi⟩

/-- Settles O33: a step with an abort's outcome is `abort`, which writes `phase` and `last_timestamp`. -/
theorem abortSavesNothing : Obligations.AbortSavesNothing := by
  intro i s t he habort
  obtain ⟨hr, lvl, -, rfl⟩ := exec_next.1 he
  rw [transition_of_abort_outcome hr habort]
  exact ⟨rfl, rfl, rfl, rfl, rfl, rfl, rfl⟩

/-! ## The trace (R61, R88) -/

/-- Settles O34: every event leaves an `after` state, whose record is written from the state's own registers. -/
theorem traceShowsValuesAfterTheStep : Obligations.TraceShowsValuesAfterTheStep := by
  intro i s t he
  obtain ⟨hr, lvl, hl, rfl⟩ := exec_next.1 he
  obtain ⟨p, a, n, oc, f, e⟩ := transition_after hr lvl i.ts
  rw [e]
  refine ⟨fun hoff => ?_, fun hon => ⟨_, after_traceOut_eq_some_iff.2 ⟨hon, rfl⟩, hl, ?_, rfl, rfl, rfl⟩⟩
  · rw [State.after, if_neg (by simp [hoff])]
  · rw [← State.duration_eq_ofNat, State.duration_toNat]

/-! ## What an event reads (R36, R68, R88)

The trace, the polarity and what is left in the accumulator and the counter are three ways in which two states can
differ and still take the same branch of R68. -/

/-- The two states hold the same bits. -/
def State.SameBits (s s' : State) : Prop := s'.accumulator = s.accumulator ∧ s'.bitCount = s.bitCount

/-- An event of level `lvl` in `s` and one of level `lvl'` in `s'`, both at `ts`, take the same branch of R68 and,
where a bit is recorded, enter it after the same bits. -/
structure SameBranch (s s' : State) (lvl lvl' : Level) (ts : Tick) : Prop where
  phase : s'.phase = s.phase
  isStart : s'.cfg.isStart lvl' = s.cfg.isStart lvl
  isBit : s'.cfg.isBit lvl' = s.cfg.isBit lvl
  abortCode : abortCode lvl' = abortCode lvl
  preambleLen : s'.PreambleLen ts ↔ s.PreambleLen ts
  gapLen : s'.GapLen ts ↔ s.GapLen ts
  bitLen : ∀ b, s'.BitLen ts b ↔ s.BitLen ts b
  bits : s.phase = .readingBits → s.SameBits s'

/-- Events that lead from `s` to `t` and from `s'` to `t'` show the same, and leave the same bits where the bits were
the same before or will be read. -/
structure SameResult (s s' t t' : State) : Prop where
  phase : t'.phase = t.phase
  lastTimestamp : t'.lastTimestamp = t.lastTimestamp
  frameOut : t'.frameOut = t.frameOut
  outcomeOut : t'.outcomeOut = t.outcomeOut
  bits : s.SameBits s' ∨ t.phase = .readingBits → t.SameBits t'

theorem SameResult.sameRegisters {t' : State} (h : SameResult s s' t t') (hb : s.SameBits s') : t.SameRegisters t' :=
  ⟨h.phase, h.lastTimestamp, h.bits (.inl hb)⟩

/-- An event that keeps the bits and does not lead to READING_BITS leaves them the same only if they were. -/
theorem sameResult_afterPhase {p : Phase} (oc : OutcomeCode) (h : p = .readingBits → s.SameBits s') :
    SameResult s s' (s.afterPhase lvl ts p oc) (s'.afterPhase lvl' ts p oc) :=
  ⟨rfl, rfl, rfl, rfl, fun hb => hb.elim id h⟩

theorem sameResult_afterRecord (h : s.SameBits s') (b : Bool) :
    SameResult s s' (s.afterRecord lvl ts b) (s'.afterRecord lvl' ts b) := by
  obtain ⟨hacc, hcount⟩ := h
  simp only [State.afterRecord, State.afterFrame, State.afterBit, State.entered, hacc, hcount]
  split
  · exact ⟨rfl, rfl, rfl, rfl, fun _ => ⟨rfl, rfl⟩⟩
  · exact ⟨rfl, rfl, rfl, rfl, fun _ => ⟨rfl, rfl⟩⟩

theorem SameBranch.transition (h : SameBranch s s' lvl lvl' ts) (hr : s.Ready) (hr' : s'.Ready) :
    SameResult s s' (s.transition lvl ts) (s'.transition lvl' ts) := by
  cases hp : s.phase with
  | idle =>
    rw [transition_of_idle hp, transition_of_idle (h.phase.trans hp)]
    simp only [h.isStart, h.preambleLen]
    split
    · exact sameResult_afterPhase _ nofun
    · exact sameResult_afterPhase _ nofun
  | preambleStarted =>
    rw [transition_of_preamble hp, transition_of_preamble (h.phase.trans hp)]
    simp only [h.isBit, h.preambleLen, h.abortCode]
    split
    · exact ⟨rfl, rfl, rfl, rfl, fun _ => ⟨rfl, rfl⟩⟩
    · exact sameResult_afterPhase _ nofun
  | readingBits =>
    rw [transition_of_reading hr hp, transition_of_reading hr' (h.phase.trans hp)]
    simp only [h.isStart, h.isBit, h.gapLen, h.bitLen, h.abortCode]
    split
    · exact sameResult_afterPhase _ fun _ => h.bits hp
    split
    · exact sameResult_afterRecord (h.bits hp) false
    split
    · exact sameResult_afterRecord (h.bits hp) true
    · exact sameResult_afterPhase _ nofun

/-- Settles O35: no branch of R68 asks for `TRACE_EN`. -/
theorem traceHasNoEffect : Obligations.TraceHasNoEffect := by
  intro i s t b he
  obtain ⟨hr, lvl, hl, rfl⟩ := exec_next.1 he
  generalize hs : { s with cfg := { s.cfg with traceEn := b } } = s'
  have hr' : s'.Ready := hs ▸ hr
  have hbits : s.SameBits s' := hs ▸ ⟨rfl, rfl⟩
  have hbranch : SameBranch s s' lvl lvl i.ts :=
    hs ▸ ⟨rfl, rfl, rfl, rfl, .rfl, .rfl, fun _ => .rfl, fun _ => ⟨rfl, rfl⟩⟩
  have hres := hbranch.transition hr hr'
  refine ⟨_, exec_next.2 ⟨hr', lvl, hl, rfl⟩, hres.sameRegisters hbits, hres.frameOut, hres.outcomeOut, ?_⟩
  rw [transition_inputs hr, transition_inputs hr', ← hs]

/-! ## The two polarities (R8, R16) -/

/-- Settles O42: an edge has the start level or the bit level exactly if its mirror image has it. -/
theorem polaritiesMirrorEachOther : Obligations.PolaritiesMirrorEachOther := by
  intro s p ts hr
  generalize hs : { s with cfg := { s.cfg with startLevel := s.cfg.startLevel.opposite } } = s'
  have hr' : s'.Ready := hs ▸ hr
  have hbits : s.SameBits s' := hs ▸ ⟨rfl, rfl⟩
  have hstart : s'.cfg.isStart p.opposite.toLevel = s.cfg.isStart p.toLevel := by
    rw [← hs, Config.isStart_toLevel, Config.isStart_toLevel, decide_eq_decide]
    exact PinLevel.opposite_inj
  have hbit : s'.cfg.isBit p.opposite.toLevel = s.cfg.isBit p.toLevel := by
    rw [← hs, Config.isBit_toLevel, Config.isBit_toLevel, decide_eq_decide]
    exact PinLevel.opposite_inj
  have habort : abortCode p.opposite.toLevel = abortCode p.toLevel := by rw [abortCode_toLevel, abortCode_toLevel]
  have hbranch : SameBranch s s' p.toLevel p.opposite.toLevel ts := by
    subst hs
    exact ⟨rfl, hstart, hbit, habort, .rfl, .rfl, fun _ => .rfl, fun _ => hbits⟩
  have hres := hbranch.transition hr hr'
  exact ⟨_, _, exec_edge_of_ready hr p, exec_edge_of_ready hr' p.opposite, hres.sameRegisters hbits, hres.frameOut,
    hres.outcomeOut⟩

/-! ## Leftover bits (R36) -/

theorem State.SameWhereRead.sameBranch (h : s.SameWhereRead s') : SameBranch s s' lvl lvl ts := by
  obtain ⟨hcfg, hp, hts, hbits⟩ := h
  have hlen : s'.len ts = s.len ts := by rw [State.len, hts, State.len]
  refine ⟨hp, by rw [hcfg], by rw [hcfg], rfl, ?_, ?_, fun b => ?_, hbits⟩
  · rw [State.PreambleLen, hcfg, hlen]
  · rw [State.GapLen, hcfg, hlen]
  · rw [State.BitLen, hcfg, hlen]

theorem State.SameWhereRead.transition (h : s.SameWhereRead s') (hr : s.Ready) (hr' : s'.Ready) :
    (s.transition lvl ts).SameWhereRead (s'.transition lvl ts) := by
  have hres := h.sameBranch.transition (lvl := lvl) (ts := ts) hr hr'
  refine ⟨?_, hres.phase, hres.lastTimestamp, fun hp => hres.bits (.inr hp)⟩
  rw [transition_cfg hr, transition_cfg hr', h.1]

theorem State.SameWhereRead.countBounded (h : s.SameWhereRead s') (hc : s.CountBounded) (hr' : s'.Ready) :
    s'.CountBounded := by
  obtain ⟨-, hp, -, hbits⟩ := h
  refine ⟨hr'.2, fun hp' => ?_⟩
  rw [hp] at hp'
  obtain ⟨hacc, hcount⟩ := hbits hp'
  rw [hacc, hcount]
  exact hc.2 hp'

theorem exec_of_no_level {i : Instr} (h : i.level = none) : exec i s = .refused .reservedLevel := by
  cases i with
  | reservedLvl3 ts => exact exec_reserved ts s
  | _ => cases h

theorem runFrom_cons_no_level {w : EventWord} (h : (decode w).level = none) (k : Nat) (ws : List EventWord) :
    runFrom k s (w :: ws) = ⟨[], [], none⟩ :=
  runFrom_cons_refused ((step_present w).trans (exec_of_no_level h)) k ws

/-- Settles O43: the two runs take the same branch in every step, which keeps their agreement and shows the same frame;
a reserved event refuses both. -/
theorem leftoverBitsReachNoFrame : Obligations.LeftoverBitsReachNoFrame := by
  intro ws
  induction ws with
  | nil => exact fun k s t _ _ _ _ => ⟨rfl, by simp⟩
  | cons w ws ih =>
    intro k s t hr hr' hc h
    cases hl : (decode w).level with
    | none =>
      rw [runFrom_cons_no_level hl, runFrom_cons_no_level hl]
      exact ⟨rfl, .rfl⟩
    | some lvl =>
      rw [runFrom_cons_event hr hl, runFrom_cons_event hr' hl]
      generalize hs : s.setInputs [] = s0
      generalize ht : t.setInputs [] = t0
      have hr : s0.Ready := hs ▸ hr
      have hr' : t0.Ready := ht ▸ hr'
      have hc : s0.CountBounded := hs ▸ hc
      have h : s0.SameWhereRead t0 := by subst hs ht; exact h
      have hframe := (h.sameBranch.transition (lvl := lvl) (ts := (decode w).ts) hr hr').frameOut
      obtain ⟨hframes, hfinal⟩ := ih (k + 1) _ _ (transition_ready (lvl := lvl) (ts := (decode w).ts) hr hc)
        (transition_ready hr' (h.countBounded hc hr')) (transition_countBounded hr hc) (h.transition hr hr')
      exact ⟨by rw [hframe, hframes], hfinal⟩

end Machine

end Sys2Proof

/-! # Streams of events (40_edge_events.md, 41_timeout_event.md, 60_exceptions.md) -/

namespace Sys2Proof.Machine

variable {s t : State} {c : Config} {lvl : Level} {last last' mid ts : Tick} {w : EventWord} {ws gs : List EventWord}
  {bits : List Bool} {b : Bool} {n : Nat}

/-! ## The event after a timeout (R91) -/

/-- Settles O58: a timeout leaves IDLE and its own tick, from which IDLE measures the next edge. -/
theorem timeoutTickIsTheNextBase : Obligations.TimeoutTickIsTheNextBase := by
  intro s tw ts hr
  refine ⟨_, exec_wdog_of_ready hr, rfl, rfl, fun hlo hhi => ?_⟩
  have hlen : (s.asWatchdog tw).PreambleLen ts := ⟨hlo, hhi⟩
  exact (exec_startEdge_of_idle (s := s.asWatchdog tw) hr rfl).trans (congrArg _ (if_pos hlen))

/-! ## Legal streams (R57, R139) -/

theorem transition_traceOut_length (hr : s.Ready) :
    (s.transition lvl ts).traceOut.toList.length = if s.cfg.traceEn = true then 1 else 0 := by
  have h := transition_traceValid (lvl := lvl) (ts := ts) hr
  rw [State.traceValid] at h
  rw [Option.length_toList, h]

/-- From a state that meets the invariant every legal event is one step more, with a record if the trace is on. -/
theorem runFrom_legal (ws : List EventWord) : ∀ (k : Nat) (s : State), s.cfg.WellFormed → s.Inv → LegalStream ws →
    ∃ t, (runFrom k s ws).final = some t ∧ t.Inv ∧
      (runFrom k s ws).traces.length = if s.cfg.traceEn = true then ws.length else 0 := by
  induction ws with
  | nil => exact fun k s _ h _ => ⟨s, rfl, h, by simp⟩
  | cons w ws ih =>
    intro k s hw h hlegal
    have hr : s.Ready := ⟨hw, h.1.1⟩
    obtain ⟨lvl, hl⟩ := Instr.level_of_wf (hlegal w List.mem_cons_self)
    have hcfg := transition_cfg (s := s.setInputs []) (lvl := lvl) (ts := (decode w).ts) hr
    have htrace := transition_traceOut_length (s := s.setInputs []) (lvl := lvl) (ts := (decode w).ts) hr
    obtain ⟨t, hfinal, hinv, hlen⟩ := ih (k + 1) _ (hcfg ▸ hw) (transition_inv (s := s.setInputs []) hr h)
      fun w' hw' => hlegal w' (List.mem_cons_of_mem w hw')
    rw [runFrom_cons_event hr hl]
    refine ⟨t, hfinal, hinv, ?_⟩
    rw [List.length_append, hlen, htrace, hcfg, State.setInputs_cfg, List.length_cons]
    split <;> omega

/-- Settles O53: reset meets the invariant, and every legal event keeps it. -/
theorem legalStreamsRunToTheirEnd : Obligations.LegalStreamsRunToTheirEnd :=
  fun c ws hw hlegal => runFrom_legal ws 1 (State.resetWith c) hw (resetWith_inv c) hlegal

/-! ## 42 events per frame (R73 to R81) -/

/-- How many of a frame's 42 events, two of its preamble and 40 bits, the block has seen. -/
def State.seenEvents (s : State) : Nat :=
  match s.phase with
  | .idle => 0
  | .preambleStarted => 1
  | .readingBits => 2 + s.bitCount.toNat

theorem seenEvents_of_idle (h : s.phase = .idle) : s.seenEvents = 0 := by rw [State.seenEvents, h]

theorem seenEvents_of_preamble (h : s.phase = .preambleStarted) : s.seenEvents = 1 := by rw [State.seenEvents, h]

theorem seenEvents_of_reading (h : s.phase = .readingBits) : s.seenEvents = 2 + s.bitCount.toNat := by
  rw [State.seenEvents, h]

/-- An event is at most one more of a frame's, and an emission uses up all 42. -/
theorem transition_seenEvents_le (hr : s.Ready) :
    42 * (s.transition lvl ts).frameOut.toList.length + (s.transition lvl ts).seenEvents ≤ s.seenEvents + 1 := by
  rcases transition_cases hr lvl ts with ⟨-, -, -, e⟩ | ⟨-, -, e⟩ | ⟨hp, -, -, e⟩ | ⟨-, -, e⟩ | ⟨hp, -, -, e⟩ |
    ⟨hp, -, b, -, -, e⟩ | ⟨hp, h40, b, -, -, e⟩ | ⟨-, -, -, e⟩ <;> rw [e]
  · exact Nat.le_add_left 1 _
  · exact Nat.zero_le _
  · rw [seenEvents_of_preamble hp]
    exact le_rfl
  · exact Nat.zero_le _
  · rw [seenEvents_of_reading hp, seenEvents_of_reading rfl]
    show 42 * 0 + (2 + s.bitCount.toNat) ≤ _
    omega
  · have hcount := afterBit_bitCount_toNat (lvl := lvl) (ts := ts) (b := b) hr.2
    rw [seenEvents_of_reading hp, seenEvents_of_reading rfl, hcount]
    show 42 * 0 + _ ≤ _
    omega
  · rw [seenEvents_of_reading hp]
    show 42 ≤ _
    omega
  · exact Nat.zero_le _

theorem frames_length_le (ws : List EventWord) :
    ∀ (k : Nat) (s : State), 42 * (runFrom k s ws).frames.length ≤ s.seenEvents + ws.length := by
  induction ws with
  | nil => exact fun _ _ => Nat.zero_le _
  | cons w ws ih =>
    intro k s
    cases hst : step (s.present w) with
    | fault r => cases r
    | refused r =>
      rw [runFrom_cons_refused hst]
      exact Nat.zero_le _
    | next t =>
      obtain ⟨hr, lvl, -, rfl⟩ := exec_next.1 ((step_present w).symm.trans hst)
      have hstep : _ ≤ s.seenEvents + 1 :=
        transition_seenEvents_le (s := s.setInputs []) (lvl := lvl) (ts := (decode w).ts) hr
      have hrest := ih (k + 1) ((s.setInputs []).transition lvl (decode w).ts)
      rw [runFrom_cons_next hst, List.length_append, List.length_map, List.length_cons]
      omega

/-- Settles O51: at reset no event of a frame is seen yet, so each emission has 42 events of its own. -/
theorem eachFrameTakesFortyTwoEvents : Obligations.EachFrameTakesFortyTwoEvents := by
  intro c ws
  have h := frames_length_le ws 1 (State.resetWith c)
  rwa [seenEvents_of_idle rfl, Nat.zero_add] at h

/-! ## A spoiled frame (R75, R82, R89) -/

/-- The run emits nothing and leaves the configuration, READING_BITS, `n` bits and the tick `last`. -/
def ReadsOn (k : Nat) (s : State) (ws : List EventWord) (n : Nat) (last : Tick) : Prop :=
  (runFrom k s ws).frames = [] ∧
  ∃ u, (runFrom k s ws).final = some u ∧ u.cfg = s.cfg ∧ u.phase = .readingBits ∧ u.bitCount.toNat = n ∧
    u.lastTimestamp = last

theorem ReadsOn.cons {k : Nat} (hst : step (s.present w) = .next t) (hf : t.frameOut = none) (hcfg : t.cfg = s.cfg)
    (h : ReadsOn (k + 1) t ws n last) : ReadsOn k s (w :: ws) n last := by
  rw [ReadsOn, hcfg] at h
  rw [ReadsOn, runFrom_cons_next hst, hf]
  exact h

/-- Gaps alone record nothing. -/
theorem readsOn_of_gaps (h : Gaps c last gs last') :
    ∀ (k : Nat) (s : State), s.cfg = c → s.lastTimestamp = last → s.Ready → s.phase = .readingBits →
      ReadsOn k s gs s.bitCount.toNat last' := by
  induction h with
  | done => exact fun k s _ hlast _ hp => ⟨rfl, s, rfl, rfl, hp, rfl, hlast⟩
  | gap last ts last' ws band rest ih =>
    rintro k s rfl rfl hr hp
    exact .cons (step_present_gap hr hp band) rfl rfl (ih _ _ rfl rfl hr rfl)

/-- Bits that do not bring the counter to 40, and gaps after them, keep READING_BITS without a frame. -/
theorem readsOn_of_carriesBits (h : CarriesBits c last ws bits mid) (hgaps : Gaps c mid gs last') :
    ∀ (k : Nat) (s : State), s.cfg = c → s.lastTimestamp = last → s.Ready → s.phase = .readingBits →
      s.bitCount.toNat + bits.length < 40 → ReadsOn k s (ws ++ gs) (s.bitCount.toNat + bits.length) last' := by
  induction h with
  | done => exact fun k s hcfg hlast hr hp _ => readsOn_of_gaps hgaps k s hcfg hlast hr hp
  | gap last ts mid ws b bs band rest ih =>
    rintro k s rfl rfl hr hp hlt
    exact .cons (step_present_gap hr hp band) rfl rfl (ih hgaps _ _ rfl rfl hr rfl hlt)
  | bit last ts mid ws b bs band rest ih =>
    rintro k s rfl rfl hr hp hlt
    rw [List.length_cons] at hlt
    have hcount : ((s.setInputs []).afterBit s.cfg.bitLevel.toLevel ts b).bitCount.toNat = s.bitCount.toNat + 1 :=
      afterBit_bitCount_toNat hr.2
    have hrest := ih hgaps (k + 1) ((s.setInputs []).afterBit s.cfg.bitLevel.toLevel ts b) rfl rfl
      ⟨hr.1, by omega⟩ rfl (by omega)
    rw [hcount, Nat.add_assoc, Nat.add_comm 1] at hrest
    exact .cons (step_present_bit hr hp band (by omega)) rfl rfl hrest

/-- The events that spoil a frame: an edge that is not admitted, and a timeout, which never is. -/
theorem level_not_admitted {i : Instr}
    (h : (∃ p ts, i = PinLevel.edge p ts ∧ ¬ s.Admits p ts) ∨ ∃ ts, i = .evWdog ts) :
    ∃ lvl, i.level = some lvl ∧ ¬ s.AdmitsLevel lvl i.ts := by
  obtain ⟨p, ts, rfl, hno⟩ | ⟨ts, rfl⟩ := h
  · refine ⟨_, p.edge_level ts, ?_⟩
    rwa [PinLevel.edge_ts, admitsLevel_toLevel]
  · exact ⟨_, rfl, not_admitsLevel_watchdog⟩

/-- One such event, as a run of its own. -/
theorem runFrom_not_admitted {i : Instr} (hr : s.Ready) (hp : s.phase ≠ .idle) (hl : i.level = some lvl)
    (hno : ¬ s.AdmitsLevel lvl i.ts) (k : Nat) :
    (runFrom k s [encode i]).frames = [] ∧
      (runFrom k s [encode i]).final = some ((s.setInputs []).afterPhase lvl i.ts .idle (abortCode lvl)) := by
  have e := transition_of_not_admitted (s := s.setInputs []) hr hp hno
  rw [runFrom_cons_event hr (by rw [decode_encode, hl]), decode_encode, e]
  exact ⟨rfl, rfl⟩

/-- Settles O50: fewer than 40 bits leave READING_BITS, whatever gaps stand among and after them, and there an event
that is not admitted leaves IDLE and the counter. -/
theorem spoiledFrameEmitsNothing : Obligations.SpoiledFrameEmitsNothing := by
  intro k s ws gs bits mid last hw hp hcount hbits hgaps hlt
  have hzero : s.bitCount.toNat = 0 := by rw [hcount]; rfl
  obtain ⟨hframes, u, hfinal, hcfg, hphase, hn, hlast⟩ :=
    readsOn_of_carriesBits hbits hgaps k s rfl rfl ⟨hw, by omega⟩ hp (by omega)
  rw [hzero, Nat.zero_add] at hn
  refine ⟨u, hfinal, hphase, hn, hlast, fun i hi => ?_⟩
  obtain ⟨lvl, hl, hno⟩ := level_not_admitted hi
  have hready : u.Ready := ⟨hcfg ▸ hw, by omega⟩
  obtain ⟨hnone, hidle⟩ := runFrom_not_admitted hready (by simp [hphase]) hl hno (k + (ws ++ gs).length)
  rw [runFrom_append, hfinal]
  dsimp only
  rw [hframes, hnone, hidle]
  exact ⟨rfl, _, rfl, rfl, rfl⟩

/-! ## PREAMBLE and FRAME (R65) -/

theorem encode_edge (p : PinLevel) (ts : Tick) : encode (p.edge ts) = eventWordOf p.toLevel.code ts := by
  cases p <;> rfl

/-- The first word of a line `LEVEL +d`. -/
theorem assembleEvents_edge_cons (prev : Tick) (p : PinLevel) (t : EventTime) (rest : List TimedEvent) :
    assembleEvents prev ((p.toLevel, t) :: rest) =
      encode (p.edge (t.resolve prev)) :: assembleEvents (t.resolve prev) rest := by
  rw [encode_edge]
  rfl

theorem assembleEvents_length (evs : List TimedEvent) :
    ∀ prev : Tick, (assembleEvents prev evs).length = evs.length := by
  induction evs with
  | nil => exact fun _ => rfl
  | cons ev rest ih => exact fun _ => congrArg (· + 1) (ih _)

/-- A relative time is measured from the line before. -/
theorem elapsed_plus (prev : Tick) (d : Nat) : elapsed prev ((EventTime.plus d).resolve prev) = d % 2 ^ 32 := by
  have h : (EventTime.plus d).resolve prev = BitVec.ofNat 32 (prev.toNat + d) := by
    rw [EventTime.resolve, BitVec.ofNat_add, BitVec.ofNat_toNat, BitVec.setWidth_eq]
  rw [h, elapsed_ofNat_add]

/-- The bits of a byte, the most significant first. -/
def bitsOfByte (x : Byte) : List Bool := (List.range 8).map x.getMsbD

theorem bitsOfByte_length (x : Byte) : (bitsOfByte x).length = 8 := by simp [bitsOfByte]

/-- The bits of the five bytes of a frame, in order. -/
def bitsOfFrame (hi hf ti tf ck : Byte) : List Bool :=
  bitsOfByte hi ++ (bitsOfByte hf ++ (bitsOfByte ti ++ (bitsOfByte tf ++ bitsOfByte ck)))

theorem bitsOfFrame_length (hi hf ti tf ck : Byte) : (bitsOfFrame hi hf ti tf ck).length = 40 := by
  simp [bitsOfFrame, bitsOfByte_length]

theorem expandByte_eq (c : Config) (x : Byte) : expandByte c x = (bitsOfByte x).flatMap (expandBit c) := by
  rw [expandByte, bitsOfByte, List.flatMap_map]

theorem expand_frame_eq (c : Config) (hi hf ti tf ck : Byte) :
    Line.expand c (.frame hi hf ti tf ck) = (bitsOfFrame hi hf ti tf ck).flatMap (expandBit c) := by
  simp only [Line.expand, expandByte_eq, bitsOfFrame, List.flatMap_append]

/-- Each bit of a line is a gap of 50 ticks and a bit event of 25 or 70, in R8's bands. -/
theorem carriesBits_expandBits (hb : c.DefaultBands) (bits : List Bool) :
    ∀ prev : Tick, ∃ last, CarriesBits c prev (assembleEvents prev (bits.flatMap (expandBit c))) bits last := by
  obtain ⟨-, -, hgapLo, hgapHi, hzeroLo, hzeroHi, honeLo, honeHi⟩ := hb
  induction bits with
  | nil => exact fun prev => ⟨prev, .done prev⟩
  | cons b bits ih =>
    intro prev
    obtain ⟨last, hrest⟩ := ih ((EventTime.plus (if b then 70 else 25)).resolve ((EventTime.plus 50).resolve prev))
    rw [List.flatMap_cons, expandBit, List.cons_append, List.cons_append, List.nil_append, assembleEvents_edge_cons,
      assembleEvents_edge_cons]
    refine ⟨last, .gap _ _ _ _ _ _ ?_ (.bit _ _ _ _ _ _ ?_ hrest)⟩
    · rw [elapsed_plus]
      omega
    · rw [elapsed_plus]
      cases b <;> simp only [Bool.false_eq_true, if_true, if_false] <;> omega

theorem getD_bitsOfByte (x : Byte) {i : Nat} (hi : i < 8) : (bitsOfByte x).getD i false = x.getMsbD i := by
  simp [bitsOfByte, hi]

theorem getD_bitsOfByte_append (x : Byte) (rest : List Bool) {i : Nat} (hi : i < 8) :
    (bitsOfByte x ++ rest).getD i false = x.getMsbD i := by
  rw [List.getD_append _ _ _ _ (by rwa [bitsOfByte_length]), getD_bitsOfByte x hi]

theorem getD_bitsOfByte_append_add (x : Byte) (rest : List Bool) (i : Nat) :
    (bitsOfByte x ++ rest).getD (8 + i) false = rest.getD i false := by
  rw [List.getD_append_right _ _ _ _ (by rw [bitsOfByte_length]; omega), bitsOfByte_length, Nat.add_sub_cancel_left]

theorem expandBits_length (c : Config) (bits : List Bool) :
    (bits.flatMap (expandBit c)).length = 2 * bits.length := by
  induction bits with
  | nil => rfl
  | cons b bits ih =>
    rw [List.flatMap_cons, List.length_append, ih, List.length_cons, expandBit, List.length_cons, List.length_singleton]
    omega

theorem getD_bitsOfFrame (hi hf ti tf ck : Byte) {i : Nat} (h : i < 8) :
    (bitsOfFrame hi hf ti tf ck).getD i false = hi.getMsbD i ∧
    (bitsOfFrame hi hf ti tf ck).getD (8 + i) false = hf.getMsbD i ∧
    (bitsOfFrame hi hf ti tf ck).getD (16 + i) false = ti.getMsbD i ∧
    (bitsOfFrame hi hf ti tf ck).getD (24 + i) false = tf.getMsbD i ∧
    (bitsOfFrame hi hf ti tf ck).getD (32 + i) false = ck.getMsbD i := by
  have h16 : 16 + i = 8 + (8 + i) := by omega
  have h24 : 24 + i = 8 + (8 + (8 + i)) := by omega
  have h32 : 32 + i = 8 + (8 + (8 + (8 + i))) := by omega
  simp only [bitsOfFrame, h16, h24, h32, getD_bitsOfByte_append_add, getD_bitsOfByte_append _ _ h, getD_bitsOfByte ck h,
    and_self]

/-- The five bytes of `Interp` are known by the accumulator's bits (R96). -/
theorem interp_eq_of_getMsbD {acc : Accumulator} {hi hf ti tf ck : Byte}
    (h : ∀ i < 40, acc.getMsbD i = (bitsOfFrame hi hf ti tf ck).getD i false) :
    (interp acc).humidityHigh = hi ∧ (interp acc).humidityLow = hf ∧ (interp acc).temperatureHigh = ti ∧
      (interp acc).temperatureLow = tf ∧ (interp acc).checksum = ck := by
  have hbits (i : Nat) (hi8 : i < 8) :
      (interp acc).humidityHigh.getMsbD i = hi.getMsbD i ∧ (interp acc).humidityLow.getMsbD i = hf.getMsbD i ∧
        (interp acc).temperatureHigh.getMsbD i = ti.getMsbD i ∧
        (interp acc).temperatureLow.getMsbD i = tf.getMsbD i ∧ (interp acc).checksum.getMsbD i = ck.getMsbD i := by
    obtain ⟨hhh, hhl, hth, htl, hck⟩ := interp_getMsbD acc hi8
    rw [hhh, hhl, hth, htl, hck, h _ (by omega), h _ (by omega), h _ (by omega), h _ (by omega), h _ (by omega)]
    exact getD_bitsOfFrame hi hf ti tf ck hi8
  simp only [imp_and, forall_and] at hbits
  obtain ⟨hhi, hhf, hti, htf, hck⟩ := hbits
  exact ⟨BitVec.eq_of_getMsbD_eq hhi, BitVec.eq_of_getMsbD_eq hhf, BitVec.eq_of_getMsbD_eq hti,
    BitVec.eq_of_getMsbD_eq htf, BitVec.eq_of_getMsbD_eq hck⟩

/-- `Interp` takes the bits of five bytes apart into the same bytes. -/
theorem interp_bitsOfFrame (hi hf ti tf ck : Byte) :
    interp ((bitsOfFrame hi hf ti tf ck).foldl shiftIn 0) =
      ⟨hi, hf, ti, tf, ck, decide (ck.toNat = (hi.toNat + hf.toNat + ti.toNat + tf.toNat) % 256)⟩ := by
  generalize hacc : (bitsOfFrame hi hf ti tf ck).foldl shiftIn 0 = acc
  obtain ⟨hhi, hhf, hti, htf, hck⟩ := interp_eq_of_getMsbD (acc := acc) fun i hi => by
    rw [← hacc, foldl_shiftIn_getMsbD (bitsOfFrame_length ..) hi]
  have hvalid : (interp acc).valid =
      decide (ck.toNat = (hi.toNat + hf.toNat + ti.toNat + tf.toNat) % 256) := by
    rw [Bool.eq_iff_iff, interp_valid_iff, Frame.SumMatches, hhi, hhf, hti, htf, hck, decide_eq_true_iff]
  rw [← hvalid, ← hhi, ← hhf, ← hti, ← htf, ← hck]

theorem step_present_preStart (hr : s.Ready) (hp : s.phase = .idle) (hlen : s.PreambleLen ts) :
    step (s.present (encode (s.cfg.startLevel.edge ts))) =
      .next ((s.setInputs []).afterPhase s.cfg.startLevel.toLevel ts .preambleStarted .preStart) := by
  rw [step_present_edge hr, transition_of_idle (s := s.setInputs []) hp, if_pos ⟨startLevel_isStart s, hlen⟩]

theorem step_present_preDone (hr : s.Ready) (hp : s.phase = .preambleStarted) (hlen : s.PreambleLen ts) :
    step (s.present (encode (s.cfg.bitLevel.edge ts))) =
      .next ((s.setInputs []).after s.cfg.bitLevel.toLevel ts .readingBits 0 0 .preDone none) := by
  rw [step_present_edge hr, transition_of_preamble (s := s.setInputs []) hp, if_pos ⟨bitLevel_isBit s, hlen⟩]

/-- A preamble's two events emit nothing, and the run goes on from a fresh accumulator and a fresh counter. -/
theorem runFrom_preamble {t1 t2 : Tick} (hr : s.Ready) (hp : s.phase = .idle) (hlen1 : s.PreambleLen t1)
    (hlen2 : s.cfg.preLoX < elapsed t1 t2 ∧ elapsed t1 t2 < s.cfg.preHiX) :
    ∃ t, t.cfg = s.cfg ∧ t.phase = .readingBits ∧ t.bitCount = 0 ∧ t.accumulator = 0 ∧ t.lastTimestamp = t2 ∧
      ∀ k ws, (runFrom k s (encode (s.cfg.startLevel.edge t1) :: encode (s.cfg.bitLevel.edge t2) :: ws)).frames =
        (runFrom (k + 2) t ws).frames := by
  have hstart := step_present_preStart hr hp hlen1
  generalize hu : (s.setInputs []).afterPhase s.cfg.startLevel.toLevel t1 .preambleStarted .preStart = u at hstart
  have hcfg : u.cfg = s.cfg := hu ▸ rfl
  have hdone := step_present_preDone (s := u) (ts := t2) (hu ▸ hr) (hu ▸ rfl) (hu ▸ hlen2)
  rw [hcfg] at hdone
  refine ⟨(u.setInputs []).after s.cfg.bitLevel.toLevel t2 .readingBits 0 0 .preDone none, hcfg, rfl, rfl, rfl, rfl,
    fun k ws => ?_⟩
  rw [runFrom_cons_next hstart, runFrom_cons_next hdone, ← hu]
  rfl

/-- Settles O49: PREAMBLE leads from IDLE to a fresh counter whatever was left over, and FRAME is a stream that carries
the 40 bits of the five bytes. -/
theorem frameNotationRoundTrip : Obligations.FrameNotationRoundTrip := by
  intro k s hi hf ti tf ck hr hb hp
  have h80 (prev : Tick) : 70 < elapsed prev ((EventTime.plus 80).resolve prev) ∧
      elapsed prev ((EventTime.plus 80).resolve prev) < 95 := by
    rw [elapsed_plus]
    decide
  generalize hbits : bitsOfFrame hi hf ti tf ck = bits
  have hlen : bits.length = 40 := hbits ▸ bitsOfFrame_length ..
  have ⟨hlo, hhi, _⟩ := hb
  obtain ⟨t, hcfg, hphase, hcount, hacc, hlast, hframes⟩ :=
    runFrom_preamble hr hp ((preambleLen_iff hb).2 (h80 _)) (by rw [hlo, hhi]; exact h80 _)
  have hzero : t.bitCount.toNat = 0 := by rw [hcount]; rfl
  obtain ⟨last, hcarries⟩ := carriesBits_expandBits hb bits t.lastTimestamp
  obtain ⟨hemit, -⟩ := emitsInLastStep_of_carriesBits hcarries (k + 2) t hcfg rfl ⟨hcfg ▸ hr.1, by omega⟩ hphase
    (List.ne_nil_of_length_pos (by omega)) (by omega)
  rw [hlast] at hemit
  rw [expand_frame_eq, hbits, Line.expand, List.cons_append, List.cons_append, List.nil_append,
    assembleEvents_edge_cons, assembleEvents_edge_cons, hframes, hemit, assembleEvents_length, expandBits_length, hlen,
    hacc, ← hbits, interp_bitsOfFrame]
  rfl

end Sys2Proof.Machine
